-- ==== Sys2Proof/Word.lean ====
section
/-! DEFINITION. The widths of the core's values (00_scope.md R7, R11; 30_encoding.md R56). -/

namespace Sys2Proof

/-- A 64-bit value: what ACC holds (R7: `W` = 64). -/
abbrev Word := BitVec 64

/-- An 8-bit value: an input byte, a control word, the result. -/
abbrev Byte := BitVec 8

/-- A 4-bit value: a control store address (R24, `PCW` = 4), and the `op` and `arg` fields of a control word (R56). -/
abbrev Nibble := BitVec 4

end Sys2Proof
end

