-- ==== Sys2Proof/Syntax.lean ====
section
/-! DEFINITION. The eight operations, one constructor per row of spec/opcode_table.json (30_encoding.md R58). -/

namespace Sys2Proof

/-- An operation of the sequencer with its operand. The operand is the 4-bit field `arg` (30_encoding.md R59). -/
inductive Instr where
  /-- INIT, word 0x10 (40_accumulate.md R70). -/
  | init
  /-- LDB, word 0x20 (40_accumulate.md R71). -/
  | ldb
  /-- BZ t, words 0x30 to 0x3F; `t` is an absolute control store address (42_control.md R91). -/
  | bz (t : Nibble)
  /-- MAD, word 0x40 (40_accumulate.md R72). -/
  | mad
  /-- BR t, words 0x50 to 0x5F; `t` is an absolute control store address (42_control.md R92). -/
  | br (t : Nibble)
  /-- FOLD i, words 0x61 to 0x67; `i` is the stage number, legal from 1 to 7 (41_fold.md R80). -/
  | fold (i : Nibble)
  /-- FIN, word 0x70 (41_fold.md R81). -/
  | fin
  /-- HALT, word 0x80 (42_control.md R93). -/
  | halt
  deriving DecidableEq, Repr

end Sys2Proof
end

