-- ==== Sys2Proof/WellFormed.lean ====
section
/-! DEFINITION. Which terms of `Instr` are operations of the core (30_encoding.md R58, R59). -/

namespace Sys2Proof

/-- A stage number of the post-process: 1 to 7 (30_encoding.md R59). -/
def legalStage (i : Nibble) : Bool :=
  decide (1 ≤ i.toNat) && decide (i.toNat ≤ 7)

/-- The one check on operands: a FOLD stage is 1 to 7. All 16 targets of BZ and BR are legal (30_encoding.md R59). -/
def Instr.wellFormed : Instr → Bool
  | .init => true
  | .ldb => true
  | .bz _ => true
  | .mad => true
  | .br _ => true
  | .fold i => legalStage i
  | .fin => true
  | .halt => true

end Sys2Proof
end

