-- ==== Sys2Proof/Decode.lean ====
section
/-! DEFINITION. From a control word to an operation, and back (30_encoding.md R56 to R60). -/

namespace Sys2Proof

/-- Why a control word is not one of the 44 legal ones: the rows of the table of 30_encoding.md R60. -/
inductive IllegalWord where
  /-- `op` is 0x0 or 0x9 to 0xF. -/
  | reservedOpcode (op : Nibble)
  /-- INIT, LDB, MAD, FIN or HALT with `arg` not 0. -/
  | operandNotZero (op arg : Nibble)
  /-- FOLD with `arg` 0 or 8 to 15. -/
  | stageOutOfRange (arg : Nibble)
  deriving DecidableEq, Repr

/-- The field `op`, bits 7:4 (30_encoding.md R56). -/
def opField (w : Byte) : Nibble := w.extractLsb' 4 4

/-- The field `arg`, bits 3:0 (30_encoding.md R56). -/
def argField (w : Byte) : Nibble := w.extractLsb' 0 4

/-- An operation without operand: `arg` must be 0 (30_encoding.md R59). -/
def decodePlain (i : Instr) (op arg : Nibble) : Except IllegalWord Instr :=
  if arg = 0#4 then .ok i else .error (.operandNotZero op arg)

/-- FOLD: `arg` must be 1 to 7 (30_encoding.md R59). -/
def decodeFold (arg : Nibble) : Except IllegalWord Instr :=
  if legalStage arg then .ok (.fold arg) else .error (.stageOutOfRange arg)

/-- The decoder: total on the 256 words (30_encoding.md R57, R58). -/
def decode (w : Byte) : Except IllegalWord Instr :=
  match (opField w).toNat with
  | 1 => decodePlain .init (opField w) (argField w)
  | 2 => decodePlain .ldb (opField w) (argField w)
  | 3 => .ok (.bz (argField w))
  | 4 => decodePlain .mad (opField w) (argField w)
  | 5 => .ok (.br (argField w))
  | 6 => decodeFold (argField w)
  | 7 => decodePlain .fin (opField w) (argField w)
  | 8 => decodePlain .halt (opField w) (argField w)
  | _ => .error (.reservedOpcode (opField w))

/-- The `op` field of an operation (30_encoding.md R58, column `op`). -/
def Instr.opcode : Instr → Nibble
  | .init => 0x1#4
  | .ldb => 0x2#4
  | .bz _ => 0x3#4
  | .mad => 0x4#4
  | .br _ => 0x5#4
  | .fold _ => 0x6#4
  | .fin => 0x7#4
  | .halt => 0x8#4

/-- The `arg` field of an operation (30_encoding.md R58, column `legal arg`). -/
def Instr.arg : Instr → Nibble
  | .init => 0#4
  | .ldb => 0#4
  | .bz t => t
  | .mad => 0#4
  | .br t => t
  | .fold i => i
  | .fin => 0#4
  | .halt => 0#4

/-- The control word of an operation, `op` in bits 7:4 and `arg` in bits 3:0 (30_encoding.md R56). -/
def encode (i : Instr) : Byte := i.opcode ++ i.arg

/-- A row of the operation map: the words `w` with `w & mask = pattern` and, for FOLD, `arg` not 0 (30_encoding.md R58). -/
structure OpcodeRow where
  pattern : Byte
  mask : Byte
  argNotZero : Bool
  deriving DecidableEq, Repr

/-- The row holds the word. -/
def OpcodeRow.selects (r : OpcodeRow) (w : Byte) : Bool :=
  (w &&& r.mask == r.pattern) && (!r.argNotZero || argField w != 0#4)

/-- The operation map as the spec prints it, columns `match` and `mask` (30_encoding.md R58). The decoder above does not
use it: that the two agree is a statement. -/
def opcodeTable : List OpcodeRow :=
  [⟨0x10#8, 0xFF#8, false⟩,
   ⟨0x20#8, 0xFF#8, false⟩,
   ⟨0x30#8, 0xF0#8, false⟩,
   ⟨0x40#8, 0xFF#8, false⟩,
   ⟨0x50#8, 0xF0#8, false⟩,
   ⟨0x60#8, 0xF8#8, true⟩,
   ⟨0x70#8, 0xFF#8, false⟩,
   ⟨0x80#8, 0xFF#8, false⟩]

/-- The instruction the decoder reads from the word of an opcode-table row, given as a number (bit 0 least significant) with
`nbits` of its bits. Every operation is one word of 8 bits (30_encoding.md R56). -/
def decodeTableWord (nbits w : Nat) : Option Instr :=
  match decode (BitVec.ofNat 8 (w % 2 ^ nbits)) with
  | .ok i => some i
  | .error _ => none

end Sys2Proof
end

