-- ==== Sys2Proof/Config.lean ====
section
/-! DEFINITION. What is fixed for a machine and is no register: the control store image of the hardware and the values this
model gives, in `State.reset`, to the two parameters the spec leaves open without an image (00_scope.md R7). -/

namespace Sys2Proof.Config

/-- The canonical control store image, address 0 first (43_hash_run.md R100). -/
def canonicalImage : Vector Byte 16 :=
  #v[0x10#8, 0x20#8, 0x35#8, 0x40#8, 0x51#8, 0x61#8, 0x62#8, 0x63#8,
     0x64#8, 0x65#8, 0x66#8, 0x67#8, 0x70#8, 0x80#8, 0x00#8, 0x00#8]

/-- The value of the open parameter AW in `State.reset`. DESIGN CHOICE (log 1): the test vectors' default, 16. Every other
state carries its own AW. -/
def resetAddressWidth : Nat := 16

/-- What an address of the input memory that the list does not mention reads as. DESIGN CHOICE (log 3): the test vectors'
convention, 0. Every total content of the memory can still be written as a list, so this restricts no state. -/
def unlistedByte : Byte := 0#8

end Sys2Proof.Config
end

