-- ==== Sys2Proof/Machine/State.lean ====
section
/-! DEFINITION. The state of the machine, the reasons a step can stop, and the state after reset (10_state.md). -/

namespace Sys2Proof.Machine

/-- The status register, 5 bits: BUSY (bit 0), DONE (bit 1), FAULT (bit 2), CAUSE (bits 4:3) (10_state.md R26). -/
structure Status where
  busy : Bool
  done : Bool
  fault : Bool
  cause : BitVec 2
  deriving DecidableEq, Repr

/-- The three causes of a fault of the core (60_exceptions.md R121). -/
inductive FaultCause where
  /-- Raised by decode: the fetched word is not one of the 44 legal words. -/
  | illegalOp
  /-- Raised by MAD at PTR = 2^AW - 1. -/
  | inputOverrun
  /-- Raised by the sequential advance at PC = 15. -/
  | pcOverrun
  deriving DecidableEq, Repr

/-- The input memory's listed bytes, addresses strictly rising, none equal to what an unlisted address reads as. -/
abbrev Memory := List Host.Cell

/-- What the host does up to and at one step boundary: the bytes it wrote to the input memory since the boundary before
(70_reset_and_hazards.md R144, first write first), and what the ports `rst`, `start` and `base` carry at the boundary
(10_state.md R29). -/
structure HostInput where
  rst : Bool
  start : Bool
  base : Nat
  fill : List Host.Cell
  deriving DecidableEq, Repr

/-- The state tuple of 43_hash_run.md R103, with the parameters PROG, Mem and AW of the step and the host's inputs at the
coming boundaries. -/
structure State where
  /-- The accumulator (10_state.md R21). -/
  acc : Word
  /-- The byte latch (10_state.md R22). -/
  c : Byte
  /-- The input pointer, AW bits: below 2^AW in every state of the hardware (10_state.md R23). -/
  ptr : Nat
  /-- The program counter (10_state.md R24). -/
  pc : Nibble
  /-- The result register (10_state.md R25). -/
  result : Byte
  /-- The status register (10_state.md R26). -/
  status : Status
  /-- The control store PROG, read-only (30_encoding.md R55). -/
  prog : Vector Byte 16
  /-- The input memory Mem, written by the host only (20_memory.md R41). -/
  mem : Memory
  /-- The parameter AW, the width of an input memory address (00_scope.md R7). -/
  aw : Nat
  /-- The host's inputs at the coming step boundaries, the next one first; after the last the host is idle (log 4). -/
  inputs : List HostInput
  deriving DecidableEq, Repr

/-- Why a step stops with a fault. The three faults of the core are no stops of the model: they are next states with
STATUS.FAULT = 1 (60_exceptions.md R124). -/
inductive Fault where
  /-- Raised by a read or write of the input memory at an address outside 0 to 2^AW - 1, which does not exist
  (20_memory.md R40, R41). No state of the hardware makes LDB raise it, since PTR has AW bits. Safe (log 6). -/
  | addressOutsideMemory (addr : Nat)
  deriving DecidableEq, Repr

/-- Why the model gives no meaning. -/
inductive Refusal where
  /-- Raised by an arm of `exec` for an instruction without a meaning; no arm does so. Safe. -/
  | notModelled (mnemonic : String)
  /-- Raised by `step` when the host wrote the input memory at `addr` while STATUS.BUSY = 1, to which the spec gives no rule
  (70_reset_and_hazards.md R148, 93_implementation_defined.md U3). Safe (log 5). -/
  | hostWriteDuringRun (addr : Nat)
  deriving DecidableEq, Repr

/-- STATUS = 0b00000, the IDLE state (10_state.md R27). -/
def Status.idle : Status := ⟨false, false, false, 0#2⟩

/-- STATUS = 0b00001, the RUN state (10_state.md R27). -/
def Status.run : Status := ⟨true, false, false, 0#2⟩

/-- STATUS = 0b00010, the DONE state (10_state.md R27). -/
def Status.ended : Status := ⟨false, true, false, 0#2⟩

/-- The machine right after reset: every register 0 (10_state.md R33), the canonical image in the control store (R100), no
byte listed in the input memory (log 3), AW = 16 (log 1), an idle host (log 4). -/
def State.reset : State where
  acc := 0#64
  c := 0#8
  ptr := 0
  pc := 0#4
  result := 0#8
  status := Status.idle
  prog := Config.canonicalImage
  mem := []
  aw := Config.resetAddressWidth
  inputs := []

end Sys2Proof.Machine
end

