-- ==== Sys2Proof/Machine/Operands.lean ====
section
/-! DEFINITION. The values the operations compute: the constants and arithmetic of INIT and MAD (40_accumulate.md), the stages
of the post-process (41_fold.md), the byte lanes (00_scope.md R11). -/

namespace Sys2Proof.Machine

/-- The seed 5381, wired into INIT (30_encoding.md R59, 40_accumulate.md R70). -/
def seed : Word := 5381#64

/-- What MAD writes to ACC: `((a << 5) + a) + zext_64(c)`, every operator modulo 2^64 (40_accumulate.md R72, R75). -/
def multiplyAdd (a : Word) (c : Byte) : Word := ((a <<< 5) + a) + c.setWidth 64

/-- `mask = 0xFF << (8 * i)` on 64 bits (41_fold.md R80, R82). -/
def stageMask (i : Nibble) : Word := 0xFF#64 <<< (8 * i.toNat)

/-- `shiftAmount = 1 >> (8 * i)` on 64 bits, then taken as a natural number (41_fold.md R80, 00_scope.md R12). -/
def stageShift (i : Nibble) : Nat := (1#64 >>> (8 * i.toNat)).toNat

/-- What FOLD i writes to ACC: `a ^ ((a & mask) >> shiftAmount)` (41_fold.md R80). -/
def foldStage (i : Nibble) (a : Word) : Word := a ^^^ ((a &&& stageMask i) >>> stageShift i)

/-- What FIN writes to RESULT: `(a & 0xFF)[7:0]` (41_fold.md R81). -/
def finalMask (a : Word) : Byte := (a &&& 0xFF#64).extractLsb' 0 8

/-- Byte lane `k` of a 64-bit value, bits 8k+7 down to 8k (00_scope.md R11). -/
def lane (k : Nat) (a : Word) : Byte := a.extractLsb' (8 * k) 8

end Sys2Proof.Machine
end

