-- ==== Sys2Proof/Machine/Flags.lean ====
section
/-! DEFINITION. The status register's codes, its 5-bit word and its changes, and the one condition of the core. The core has no
condition codes (10_state.md R28). -/

namespace Sys2Proof.Machine

/-- The value of STATUS.CAUSE for a fault (60_exceptions.md R121). -/
def FaultCause.code : FaultCause → BitVec 2
  | .illegalOp => 1#2
  | .inputOverrun => 2#2
  | .pcOverrun => 3#2

/-- STATUS as a 5-bit value: CAUSE in bits 4:3, FAULT in bit 2, DONE in bit 1, BUSY in bit 0 (10_state.md R26). -/
def Status.word (s : Status) : BitVec 5 :=
  s.cause ++ BitVec.ofBool s.fault ++ BitVec.ofBool s.done ++ BitVec.ofBool s.busy

/-- Fault entry's writes to STATUS: BUSY, FAULT and CAUSE; DONE is kept (60_exceptions.md R124). -/
def Status.faulted (s : Status) (cause : FaultCause) : Status :=
  { s with busy := false, fault := true, cause := cause.code }

/-- HALT's writes to STATUS: BUSY and DONE; FAULT and CAUSE are kept (42_control.md R93). -/
def Status.halted (s : Status) : Status :=
  { s with busy := false, done := true }

/-- The START event's writes to STATUS: BUSY and DONE; FAULT and CAUSE are kept (43_hash_run.md R102). -/
def Status.started (s : Status) : Status :=
  { s with busy := true, done := false }

/-- The condition of BZ: the whole byte is compared with 0 (42_control.md R91, 10_state.md R28). -/
def isZeroByte (c : Byte) : Bool := c == 0#8

/-- The six values STATUS takes: IDLE, RUN, DONE, and FAULTED with cause 1, 2 or 3 (10_state.md R27). -/
def Status.legal (s : Status) : Bool :=
  [0b00000#5, 0b00001#5, 0b00010#5, 0b01100#5, 0b10100#5, 0b11100#5].contains s.word

end Sys2Proof.Machine
end

