-- ==== Sys2Proof/Machine/Ops.lean ====
section
/-! DEFINITION. The operations the meanings share: reading and writing the input memory (20_memory.md), writing registers,
fetching a control word, the sequential advance (42_control.md R90) and fault entry (60_exceptions.md R124). There is no
return from a fault to define: no operation resumes a faulted run, only reset clears the fault (60_exceptions.md R127). -/

namespace Sys2Proof.Machine

/-- The byte at an address of the input memory: `Mem(addr)` (20_memory.md R41). -/
def Memory.read : Memory → Nat → Byte
  | [], _ => Config.unlistedByte
  | (k, v) :: rest, a => if a = k then v else Memory.read rest a

/-- Puts one byte in front of cells that all lie above it, unless an unlisted address reads as that byte. -/
def Memory.place (a : Nat) (b : Byte) (rest : Memory) : Memory :=
  if b = Config.unlistedByte then rest else (a, b) :: rest

/-- Stores one byte at an address and keeps the canonical form. The host alone writes the input memory (20_memory.md R40). -/
def Memory.write : Memory → Nat → Byte → Memory
  | [], a, b => Memory.place a b []
  | (k, v) :: rest, a, b =>
    if a < k then Memory.place a b ((k, v) :: rest)
    else if a = k then Memory.place a b rest
    else (k, v) :: Memory.write rest a b

/-- The canonical form: addresses strictly rising, no byte that an unlisted address reads as. -/
def Memory.wf : Memory → Bool
  | [] => true
  | (k, v) :: rest => (v != Config.unlistedByte) && rest.all (fun cell => decide (k < cell.1)) && Memory.wf rest

/-- Every listed address exists: it lies in 0 to 2^AW - 1 (20_memory.md R40). -/
def Memory.within (m : Memory) (aw : Nat) : Bool := m.all (fun cell => decide (cell.1 < 2 ^ aw))

/-- `MemRead(addr, 1)`: the byte at `addr`; an address from 2^AW on does not exist (20_memory.md R42, R40). -/
def memRead (a : Nat) (s : State) : Except Fault Byte :=
  if a < 2 ^ s.aw then .ok (s.mem.read a) else .error (.addressOutsideMemory a)

/-- The top address of the input memory, 2^AW - 1 (20_memory.md R40). -/
def State.topAddress (s : State) : Nat := 2 ^ s.aw - 1

/-- `ACC <- v`. -/
def State.setAcc (s : State) (v : Word) : State := { s with acc := v }

/-- `C <- v`. -/
def State.setC (s : State) (v : Byte) : State := { s with c := v }

/-- `PTR <- v`: PTR has AW bits (10_state.md R23). -/
def State.setPtr (s : State) (v : Nat) : State := { s with ptr := v % 2 ^ s.aw }

/-- `PC <- v`. -/
def State.setPc (s : State) (v : Nibble) : State := { s with pc := v }

/-- `RESULT <- v`. -/
def State.setResult (s : State) (v : Byte) : State := { s with result := v }

/-- `STATUS <- v`. -/
def State.setStatus (s : State) (v : Status) : State := { s with status := v }

/-- The input memory as the host leaves it. -/
def State.setMem (s : State) (m : Memory) : State := { s with mem := m }

/-- The fetched word, `PROG[PC]`. A fetch cannot fault (30_encoding.md R57). -/
def State.fetch (s : State) : Byte := s.prog[s.pc.toNat]'s.pc.isLt

/-- `raise Fault(cause)`: the operation is abandoned, so `s` is the state before it, and STATUS alone is written
(60_exceptions.md R124). -/
def raiseFault (cause : FaultCause) (s : State) : Host.Outcome State Fault Refusal :=
  .next (s.setStatus (s.status.faulted cause))

/-- `next`: the end of an operation that found the state `s` and whose other writes give `t`. At PC = 15 it raises PC_OVERRUN
and none of the writes happens; else PC <- PC + 1 (42_control.md R90). -/
def advance (s t : State) : Host.Outcome State Fault Refusal :=
  if s.pc = 15#4 then raiseFault .pcOverrun s else .next (t.setPc (s.pc + 1#4))

end Sys2Proof.Machine
end

