-- ==== Sys2Proof/Machine/Accumulate.lean ====
section
/-! DEFINITION. The accumulator family: INIT, LDB, MAD (40_accumulate.md). -/

namespace Sys2Proof.Machine

/-- INIT: `ACC <- 5381; next` (40_accumulate.md R70). -/
def execInit (s : State) : Host.Outcome State Fault Refusal :=
  advance s (s.setAcc seed)

/-- LDB: `C <- MemRead(PTR, 1); next` (40_accumulate.md R71). -/
def execLdb (s : State) : Host.Outcome State Fault Refusal :=
  match memRead s.ptr s with
  | .ok b => advance s (s.setC b)
  | .error r => .fault r

/-- MAD: INPUT_OVERRUN at PTR = 2^AW - 1, tested first; else ACC absorbs C, PTR moves on, and `next`
(40_accumulate.md R72; the order of the checks is 60_exceptions.md R123). -/
def execMad (s : State) : Host.Outcome State Fault Refusal :=
  if s.ptr = s.topAddress then raiseFault .inputOverrun s
  else advance s ((s.setAcc (multiplyAdd s.acc s.c)).setPtr (s.ptr + 1))

end Sys2Proof.Machine
end

