-- ==== Sys2Proof/Machine/Control.lean ====
section
/-! DEFINITION. The control family: BZ, BR, HALT (42_control.md). -/

namespace Sys2Proof.Machine

/-- BZ t: `PC <- t` when C = 0, else `next` (42_control.md R91). -/
def execBz (t : Nibble) (s : State) : Host.Outcome State Fault Refusal :=
  if isZeroByte s.c then .next (s.setPc t) else advance s s

/-- BR t: `PC <- t` (42_control.md R92). -/
def execBr (t : Nibble) (s : State) : Host.Outcome State Fault Refusal :=
  .next (s.setPc t)

/-- HALT: `BUSY <- 0; DONE <- 1`, PC kept (42_control.md R93). -/
def execHalt (s : State) : Host.Outcome State Fault Refusal :=
  .next (s.setStatus s.status.halted)

end Sys2Proof.Machine
end

