-- ==== Sys2Proof/Machine/Fold.lean ====
section
/-! DEFINITION. The post-processor family: FOLD, FIN (41_fold.md). -/

namespace Sys2Proof.Machine

/-- FOLD i: `ACC <- ACC ^ ((ACC & mask) >> shiftAmount); next` (41_fold.md R80). A stage outside 1 to 7 is no operation: its
word is illegal and raises ILLEGAL_OP (30_encoding.md R60; log 7). -/
def execFold (i : Nibble) (s : State) : Host.Outcome State Fault Refusal :=
  if legalStage i then advance s (s.setAcc (foldStage i s.acc)) else raiseFault .illegalOp s

/-- FIN: `RESULT <- (ACC & 0xFF)[7:0]; next` (41_fold.md R81). -/
def execFin (s : State) : Host.Outcome State Fault Refusal :=
  advance s (s.setResult (finalMask s.acc))

end Sys2Proof.Machine
end

