-- ==== Sys2Proof/Machine/Dispatch.lean ====
section
/-! DEFINITION. Performing one operation: one arm per operation (30_encoding.md R57, R58). -/

namespace Sys2Proof.Machine

def exec (i : Instr) (s : State) : Host.Outcome State Fault Refusal :=
  match i with
  | .init => Sys2Proof.Machine.execInit s
  | .ldb => Sys2Proof.Machine.execLdb s
  | .bz t => Sys2Proof.Machine.execBz t s
  | .mad => Sys2Proof.Machine.execMad s
  | .br t => Sys2Proof.Machine.execBr t s
  | .fold k => Sys2Proof.Machine.execFold k s
  | .fin => Sys2Proof.Machine.execFin s
  | .halt => Sys2Proof.Machine.execHalt s

end Sys2Proof.Machine
end

