-- ==== Sys2Proof/Machine/Sequencer.lean ====
section
/-! DEFINITION. One sequencer step (30_encoding.md R57). -/

namespace Sys2Proof.Machine

/-- Fetch `PROG[PC]`, decode it, then perform the operation, or raise ILLEGAL_OP (30_encoding.md R57). -/
def sequencerStep (s : State) : Host.Outcome State Fault Refusal :=
  match decode s.fetch with
  | .ok i => exec i s
  | .error _ => raiseFault .illegalOp s

end Sys2Proof.Machine
end

