-- ==== Sys2Proof/Machine/HostPort.lean ====
section
/-! DEFINITION. The host's side: its inputs at a step boundary, filling the input memory, the reset and START events, what
happens at a boundary (43_hash_run.md R102, R103; 70_reset_and_hazards.md R140, R144) and the output ports (10_state.md R29). -/

namespace Sys2Proof.Machine

/-- What the host does when the list of its inputs has ended: nothing (log 4). -/
def HostInput.idle : HostInput := ⟨false, false, 0, []⟩

/-- The host's input at the coming boundary. -/
def State.hostInput (s : State) : HostInput := s.inputs.headD HostInput.idle

/-- The state with the coming boundary's input consumed. -/
def State.dropInput (s : State) : State := { s with inputs := s.inputs.tail }

/-- The host writes one byte to the input memory: in the spec while BUSY = 0 only, and never during a run
(20_memory.md R40; 70_reset_and_hazards.md R144, R148; log 5). -/
def hostWrite (a : Nat) (b : Byte) (s : State) : Host.Outcome State Fault Refusal :=
  if s.status.busy then .refused (.hostWriteDuringRun a)
  else if a < 2 ^ s.aw then .next (s.setMem (s.mem.write a b))
  else .fault (.addressOutsideMemory a)

/-- The host's writes since the boundary before, first write first (70_reset_and_hazards.md R144, row `fill input`). -/
def hostFill : List Host.Cell → State → Host.Outcome State Fault Refusal
  | [], s => .next s
  | (a, b) :: rest, s =>
    match hostWrite a b s with
    | .next t => hostFill rest t
    | .fault r => .fault r
    | .refused r => .refused r

/-- The reset event: every register takes its reset value; neither memory is touched (70_reset_and_hazards.md R140). -/
def resetEvent (s : State) : State :=
  { s with acc := 0#64, c := 0#8, ptr := 0, pc := 0#4, result := 0#8, status := Status.idle }

/-- The START event with `base` on its port: `PC <- 0; PTR <- base; BUSY <- 1; DONE <- 0` (43_hash_run.md R102). -/
def startEvent (base : Nat) (s : State) : State :=
  ((s.setPc 0#4).setPtr base).setStatus s.status.started

/-- What happens at a step boundary, tested in the order of 43_hash_run.md R103: reset, a sequencer step, the START event,
or nothing. -/
def boundary (inp : HostInput) (s : State) : Host.Outcome State Fault Refusal :=
  if inp.rst then .next (resetEvent s)
  else if s.status.busy then sequencerStep s
  else if !s.status.fault && inp.start then .next (startEvent inp.base s)
  else .next s

/-- The host's writes, then the boundary. -/
def hostThenBoundary (inp : HostInput) (s : State) : Host.Outcome State Fault Refusal :=
  match hostFill inp.fill s with
  | .next t => boundary inp t
  | .fault r => .fault r
  | .refused r => .refused r

/-- `mem_re`: 1 during a step that performs LDB (10_state.md R29; log 10). The step is the one that the coming boundary takes. -/
def State.memReadEnable (s : State) : Bool :=
  !s.hostInput.rst && s.status.busy && decide (decode s.fetch = .ok .ldb)

/-- The output ports (10_state.md R29). -/
structure OutputPorts where
  memAddr : Nat
  memRe : Bool
  result : Byte
  busy : Bool
  done : Bool
  fault : Bool
  cause : BitVec 2
  deriving DecidableEq, Repr

/-- What the output ports carry in a state (10_state.md R29). -/
def State.ports (s : State) : OutputPorts where
  memAddr := s.ptr
  memRe := s.memReadEnable
  result := s.result
  busy := s.status.busy
  done := s.status.done
  fault := s.status.fault
  cause := s.status.cause

end Sys2Proof.Machine
end

