-- ==== Sys2Proof/Machine/Step.lean ====
section
/-! DEFINITION. The step of the machine (43_hash_run.md R103). -/

namespace Sys2Proof.Machine

/-- One step: the coming boundary's host input is consumed, the host's writes are done, and the boundary happens. -/
def step (s : State) : Host.Outcome State Fault Refusal :=
  hostThenBoundary s.hostInput s.dropInput

/-- `s` with the word `w` (its low `nbits` bits) in the control store at PC, a run in progress (STATUS = RUN) and an idle host
at the coming boundary, so that the very next step fetches and performs that word. PROG is a parameter of the model
(30_encoding.md R55; log 2): the placing stands for taking another image. -/
def State.withFetchWord (s : State) (nbits w : Nat) : State :=
  { s with
    prog := s.prog.set s.pc.toNat (BitVec.ofNat 8 (w % 2 ^ nbits)) s.pc.isLt
    status := Status.run
    inputs := HostInput.idle :: s.inputs }

end Sys2Proof.Machine
end

