-- ==== Sys2Proof/Machine/Assembler.lean ====
section
/-! DEFINITION. The spec's assembler and disassembler (30_encoding.md R62, R63), on texts given as lists of characters. -/

namespace Sys2Proof.Machine

/-- A branch target as written: a number or a label (30_encoding.md R62, `target`). -/
inductive AsmTarget where
  | number (n : Nat)
  | label (name : List Char)
  deriving DecidableEq, Repr

/-- An operation as written, or the directive `.word` (30_encoding.md R62, `operation`). -/
inductive AsmOp where
  | init
  | ldb
  | mad
  | fin
  | halt
  | bz (t : AsmTarget)
  | br (t : AsmTarget)
  | fold (n : Nat)
  | word (v : Nat)
  deriving DecidableEq, Repr

/-- A line without its comment (30_encoding.md R62, `line`). -/
structure AsmLine where
  label : Option (List Char)
  op : Option AsmOp
  deriving DecidableEq, Repr

/-- Why a text cannot be assembled (30_encoding.md R62). -/
inductive AsmError where
  /-- The line is not of the grammar. -/
  | badLine (text : List Char)
  /-- A target over 15, a FOLD number outside 1 to 7, a `.word` over 255. -/
  | outOfRange (n : Nat)
  /-- A target names no label of the program. -/
  | unknownLabel (name : List Char)
  /-- Two lines carry the same label (log 11). -/
  | duplicateLabel (name : List Char)
  /-- More than 16 operations. -/
  | tooLong (n : Nat)
  deriving DecidableEq, Repr

/-- A text cut at the characters that `sep` accepts; they are dropped. -/
def cutAt (sep : Char → Bool) : List Char → List (List Char)
  | [] => [[]]
  | ch :: rest =>
    if sep ch then [] :: cutAt sep rest
    else
      match cutAt sep rest with
      | [] => [[ch]]
      | piece :: more => (ch :: piece) :: more

/-- Blanks inside a line: space, tab and carriage return (log 11). -/
def isBlank (ch : Char) : Bool := ch == ' ' || ch == '\t' || ch == '\r'

/-- The words of a line. -/
def asmTokens (l : List Char) : List (List Char) := (cutAt isBlank l).filter (fun t => !t.isEmpty)

/-- The value of a decimal digit. -/
def decimalDigit (ch : Char) : Option Nat :=
  if '0' ≤ ch ∧ ch ≤ '9' then some (ch.toNat - 48) else none

/-- The value of a hexadecimal digit, upper or lower case (log 11). -/
def hexDigit (ch : Char) : Option Nat :=
  if '0' ≤ ch ∧ ch ≤ '9' then some (ch.toNat - 48)
  else if 'A' ≤ ch ∧ ch ≤ 'F' then some (ch.toNat - 55)
  else if 'a' ≤ ch ∧ ch ≤ 'f' then some (ch.toNat - 87)
  else none

/-- The number that digits write in a radix, most significant first, on top of `acc`. -/
def digitsValue (radix : Nat) (digit : Char → Option Nat) : List Char → Nat → Option Nat
  | [], acc => some acc
  | ch :: rest, acc =>
    match digit ch with
    | some d => digitsValue radix digit rest (acc * radix + d)
    | none => none

/-- A number: decimal digits, or `0x` and hexadecimal digits (30_encoding.md R62, `number`). -/
def parseNumber : List Char → Option Nat
  | [] => none
  | ['0', 'x'] => none
  | '0' :: 'x' :: digits => digitsValue 16 hexDigit digits 0
  | digits => digitsValue 10 decimalDigit digits 0

/-- A label starts with a letter or `_` and goes on with letters, digits and `_` (log 11). -/
def isLabel : List Char → Bool
  | [] => false
  | ch :: rest => (ch.isAlpha || ch == '_') && rest.all (fun d => d.isAlphanum || d == '_')

/-- A target: a number or a label (30_encoding.md R62, `target`). -/
def parseTarget (t : List Char) : Option AsmTarget :=
  match parseNumber t with
  | some n => some (.number n)
  | none => if isLabel t then some (.label t) else none

/-- An operation from its words; mnemonics are upper case (30_encoding.md R62). -/
def parseOp : List (List Char) → Option AsmOp
  | [['I', 'N', 'I', 'T']] => some .init
  | [['L', 'D', 'B']] => some .ldb
  | [['M', 'A', 'D']] => some .mad
  | [['F', 'I', 'N']] => some .fin
  | [['H', 'A', 'L', 'T']] => some .halt
  | [['B', 'Z'], t] => (parseTarget t).map .bz
  | [['B', 'R'], t] => (parseTarget t).map .br
  | [['F', 'O', 'L', 'D'], n] => (parseNumber n).map .fold
  | [['.', 'w', 'o', 'r', 'd'], v] => (parseNumber v).map .word
  | _ => none

/-- The operation part of a line: nothing, or one operation. -/
def parseOptionalOp (l : List Char) : Option (Option AsmOp) :=
  match asmTokens l with
  | [] => some none
  | ts => (parseOp ts).map some

/-- One line: `[label ":"] [operation] [";" comment]` (30_encoding.md R62). -/
def parseLine (text : List Char) : Except AsmError AsmLine :=
  let l := text.takeWhile (fun ch => ch != ';')
  if l.contains ':' then
    match asmTokens (l.takeWhile (fun ch => ch != ':')), parseOptionalOp ((l.dropWhile (fun ch => ch != ':')).tail) with
    | [name], some op => if isLabel name then .ok ⟨some name, op⟩ else .error (.badLine text)
    | _, _ => .error (.badLine text)
  else
    match parseOptionalOp l with
    | some op => .ok ⟨none, op⟩
    | none => .error (.badLine text)

/-- The lines of a program text. -/
def parseLines : List (List Char) → Except AsmError (List AsmLine)
  | [] => .ok []
  | text :: rest =>
    match parseLine text, parseLines rest with
    | .ok l, .ok ls => .ok (l :: ls)
    | .error e, _ => .error e
    | _, .error e => .error e

/-- The labels of a program, each with the address of the operation that follows it (30_encoding.md R62); `a` is the address
reached. DESIGN CHOICE (log 11): R62 gives no address to a label that no operation follows; here it is the address after the last
operation, that of the first padding word where there is one. -/
def labelTable : List AsmLine → Nat → List (List Char × Nat)
  | [], _ => []
  | l :: rest, a =>
    let more := labelTable rest (if l.op.isSome then a + 1 else a)
    match l.label with
    | some name => (name, a) :: more
    | none => more

/-- The first label that an earlier line also carries. -/
def repeatedLabel : List (List Char × Nat) → Option (List Char)
  | [] => none
  | (name, _) :: rest => if rest.any (fun r => r.1 == name) then some name else repeatedLabel rest

/-- The 4-bit address a target stands for: a number, or a label's address, 0 to 15. -/
def resolveTarget (labels : List (List Char × Nat)) (t : AsmTarget) : Except AsmError Nibble :=
  let value := match t with
    | .number n => some n
    | .label name => (labels.find? (fun r => r.1 == name)).map (fun r => r.2)
  match value, t with
  | some n, _ => if n < 16 then .ok (BitVec.ofNat 4 n) else .error (.outOfRange n)
  | none, .label name => .error (.unknownLabel name)
  | none, .number n => .error (.outOfRange n)

/-- The control word of an operation as written; only `.word` can give an illegal one (30_encoding.md R62). -/
def assembleOp (labels : List (List Char × Nat)) : AsmOp → Except AsmError Byte
  | .init => .ok (encode .init)
  | .ldb => .ok (encode .ldb)
  | .mad => .ok (encode .mad)
  | .fin => .ok (encode .fin)
  | .halt => .ok (encode .halt)
  | .bz t => (resolveTarget labels t).map (fun a => encode (.bz a))
  | .br t => (resolveTarget labels t).map (fun a => encode (.br a))
  | .fold n => if 1 ≤ n ∧ n ≤ 7 then .ok (encode (.fold (BitVec.ofNat 4 n))) else .error (.outOfRange n)
  | .word v => if v < 256 then .ok (BitVec.ofNat 8 v) else .error (.outOfRange v)

/-- The control words of the lines that hold an operation, in order. -/
def assembleOps (labels : List (List Char × Nat)) : List AsmLine → Except AsmError (List Byte)
  | [] => .ok []
  | l :: rest =>
    match l.op with
    | none => assembleOps labels rest
    | some op =>
      match assembleOp labels op, assembleOps labels rest with
      | .ok w, .ok ws => .ok (w :: ws)
      | .error e, _ => .error e
      | _, .error e => .error e

/-- The control store image of parsed lines: the first operation at address 0, padded with 0x00 to 16 words
(30_encoding.md R62). -/
def assembleLines (ls : List AsmLine) : Except AsmError (Vector Byte 16) :=
  match repeatedLabel (labelTable ls 0), assembleOps (labelTable ls 0) ls with
  | some name, _ => .error (.duplicateLabel name)
  | none, .error e => .error e
  | none, .ok ws =>
    if ws.length ≤ 16 then .ok (Vector.ofFn (fun a => ws.getD a.val 0x00#8)) else .error (.tooLong ws.length)

/-- The assembler: from a program text to a control store image (30_encoding.md R62). -/
def assemble (text : List Char) : Except AsmError (Vector Byte 16) :=
  match parseLines (cutAt (fun ch => ch == '\n') text) with
  | .ok ls => assembleLines ls
  | .error e => .error e

/-- The character of a digit 0 to 15, upper case. -/
def digitChar (n : Nat) : Char := if n < 10 then Char.ofNat (48 + n) else Char.ofNat (55 + n)

/-- A number 0 to 15 in decimal. -/
def decimalText (n : Nat) : List Char := if n < 10 then [digitChar n] else ['1', digitChar (n - 10)]

/-- A control word in hexadecimal, `0xNN`. -/
def hexText (w : Byte) : List Char := ['0', 'x', digitChar (w.toNat / 16), digitChar (w.toNat % 16)]

/-- The mnemonic of an operation with its operand in decimal (30_encoding.md R63). -/
def instrText : Instr → List Char
  | .init => ['I', 'N', 'I', 'T']
  | .ldb => ['L', 'D', 'B']
  | .bz t => ['B', 'Z', ' '] ++ decimalText t.toNat
  | .mad => ['M', 'A', 'D']
  | .br t => ['B', 'R', ' '] ++ decimalText t.toNat
  | .fold i => ['F', 'O', 'L', 'D', ' '] ++ decimalText i.toNat
  | .fin => ['F', 'I', 'N']
  | .halt => ['H', 'A', 'L', 'T']

/-- The disassembler: an illegal word is printed `.word 0xNN` (30_encoding.md R63). -/
def disassemble (w : Byte) : List Char :=
  match decode w with
  | .ok i => instrText i
  | .error _ => ['.', 'w', 'o', 'r', 'd', ' '] ++ hexText w

/-- A listing line, `address: word  MNEMONIC operand` (30_encoding.md R62). -/
def listingLine (address : Nibble) (w : Byte) : List Char :=
  decimalText address.toNat ++ [':', ' '] ++ hexText w ++ [' ', ' '] ++ disassemble w

end Sys2Proof.Machine
end

