-- ==== Sys2Proof/Machine/Contract.lean ====
section
/-! DEFINITION. The mathematics of the contract of a run: the input string, `djb2` and `hash` (here `stringHash`) (20_memory.md R45; 43_hash_run.md
R108, R109), written without the machine's own arithmetic, and the addresses a run reads (20_memory.md R43). -/

namespace Sys2Proof.Machine

/-- `djb2`: seed 5381, then `h * 33 + c` for each byte, modulo 2^64 (43_hash_run.md R108). -/
def djb2 (str : List Byte) : Word :=
  str.foldl (fun h ch => h * 33#64 + BitVec.ofNat 64 ch.toNat) 5381#64

/-- `djb2` with no reduction, on natural numbers (40_accumulate.md R77). -/
def djb2Unreduced (str : List Byte) : Nat :=
  str.foldl (fun h ch => h * 33 + ch.toNat) 5381

/-- `djb2` with the byte sign-extended, which the core does not compute (43_hash_run.md R114). -/
def djb2SignExtended (str : List Byte) : Word :=
  str.foldl (fun h ch => h * 33#64 + ch.signExtend 64) 5381#64

/-- `hash(s) = djb2(s) mod 256` (43_hash_run.md R109). -/
def stringHash (str : List Byte) : Byte := BitVec.ofNat 8 ((djb2 str).toNat % 256)

/-- The bytes from address `a` up to and excluding the first 0, if one of the `n` bytes from `a` on is 0. -/
def cstrFrom (m : Memory) : Nat → Nat → Option (List Byte)
  | 0, _ => none
  | n + 1, a => if m.read a = 0#8 then some [] else (cstrFrom m n (a + 1)).map (fun rest => m.read a :: rest)

/-- `cstr(Mem, b)`: the input string at `b`, none when the input is unterminated; the search stops at the top of the memory
(20_memory.md R45). -/
def State.cstr (s : State) (b : Nat) : Option (List Byte) := cstrFrom s.mem (2 ^ s.aw - b) b

/-- The `n` bytes of the memory from address `b` on. -/
def Memory.bytes (m : Memory) (b n : Nat) : List Byte := (List.range n).map (fun k => m.read (b + k))

/-- The addresses on `mem_addr` in the next `k` steps in which `mem_re` is 1 (10_state.md R29, 20_memory.md R43). -/
def readTrace : Nat → State → List Nat
  | 0, _ => []
  | k + 1, s =>
    (if s.memReadEnable then [s.ports.memAddr] else []) ++
      match step s with
      | .next t => readTrace k t
      | .fault _ => []
      | .refused _ => []

end Sys2Proof.Machine
end

