-- ==== Sys2Proof/Safety.lean ====
section
/-! DEFINITION. What a state of the hardware is, what the host may do, and what a run is, in the terms the statements use. -/

namespace Sys2Proof.Machine

/-- The states of the hardware: AW at least 1 (00_scope.md R7), PTR an AW-bit value (10_state.md R23), the input memory in its
canonical form with every listed address existing (20_memory.md R41), STATUS one of its six values (10_state.md R27). -/
abbrev State.Inv (s : State) : Prop :=
  1 ≤ s.aw ∧ s.ptr < 2 ^ s.aw ∧ s.mem.wf = true ∧ s.mem.within s.aw = true ∧ s.status.legal = true

/-- The host input neither resets the core nor writes the input memory; `start` and `base` are as they may. -/
def HostInput.quiet (inp : HostInput) : Bool := !inp.rst && inp.fill.isEmpty

/-- No reset and no host write up to and at the next `k` boundaries (the precondition of 43_hash_run.md R110, and R148). -/
def State.quietFor (s : State) (k : Nat) : Bool := (s.inputs.take k).all HostInput.quiet

/-- The host keeps its duties at the coming boundary: it does not write during a run, and only at addresses that exist
(70_reset_and_hazards.md R144, 20_memory.md R40). -/
def State.hostLawful (s : State) : Bool :=
  (!s.status.busy || s.hostInput.fill.isEmpty) && s.hostInput.fill.all (fun cell => decide (cell.1 < 2 ^ s.aw))

/-- The coming boundary is a START event with `base = b` on a core with the canonical image and STATUS IDLE or DONE, and
neither a reset nor a host write comes with it or with the `k` boundaries after it (43_hash_run.md R110). -/
abbrev State.StartsCanonicalRun (s : State) (b k : Nat) : Prop :=
  s.prog = Config.canonicalImage ∧ (s.status = Status.idle ∨ s.status = Status.ended) ∧ s.hostInput.start = true ∧
    s.hostInput.base = b ∧ b < 2 ^ s.aw ∧ s.quietFor (k + 1) = true

/-- The core is running and neither a reset nor a host write comes with the coming boundary: the coming step is a sequencer
step (43_hash_run.md R103). -/
abbrev State.Running (s : State) : Prop := s.status.busy = true ∧ s.hostInput.quiet = true

/-- `k` steps of the machine. -/
abbrev runSteps (k : Nat) (s : State) : Host.Outcome State Fault Refusal := Host.Core.run Sys2Proof.core k s

end Sys2Proof.Machine
end

