-- ==== Sys2Proof/Certificates/Slice0/Obligations.lean ====
section
/-! DEFINITION. The statements for the provers. Each docstring names the rule of spec/ it formalises. In them a fault entry is
written out as the spec gives it: STATUS with BUSY 0, FAULT 1 and the cause's code, every other register as before
(60_exceptions.md R124). -/

open Sys2Proof Sys2Proof.Machine

/-! ### Encoding (30_encoding.md) -/

/-- Derived from R56 and R58: no bit of an operation or its operand is lost by encoding it. -/
def Obligations.DecodingAnEncodingGivesTheOperation : Prop :=
  ∀ i : Instr, i.wellFormed = true → decode (encode i) = .ok i

/-- Derived from R56 and R58: a word that decodes is the one word of a well-formed operation. -/
def Obligations.DecodedWordIsItsOperationsOnlyWord : Prop :=
  ∀ (w : Byte) (i : Instr), decode w = .ok i → i.wellFormed = true ∧ encode i = w

/-- R64: the encoding examples, in both directions. -/
def Obligations.PrintedWordsAreTheirOperations : Prop :=
  (decode 0x10#8 = .ok .init ∧ decode 0x20#8 = .ok .ldb ∧ decode 0x35#8 = .ok (.bz 5#4) ∧ decode 0x40#8 = .ok .mad ∧
    decode 0x51#8 = .ok (.br 1#4) ∧ decode 0x61#8 = .ok (.fold 1#4) ∧ decode 0x67#8 = .ok (.fold 7#4) ∧
    decode 0x70#8 = .ok .fin ∧ decode 0x80#8 = .ok .halt) ∧
  (encode .init = 0b00010000#8 ∧ encode .ldb = 0b00100000#8 ∧ encode (.bz 5#4) = 0b00110101#8 ∧ encode .mad = 0b01000000#8 ∧
    encode (.br 1#4) = 0b01010001#8 ∧ encode (.fold 1#4) = 0b01100001#8 ∧ encode (.fold 7#4) = 0b01100111#8 ∧
    encode .fin = 0b01110000#8 ∧ encode .halt = 0b10000000#8)

/-- R60: the illegal words, range by range as the table lists them; performing one raises ILLEGAL_OP and writes no register
but STATUS. -/
def Obligations.IllegalWordsRaiseIllegalOp : Prop :=
  (∀ w : Byte, (∃ e, decode w = .error e) ↔
    (w.toNat ≤ 0x0F ∨ (0x11 ≤ w.toNat ∧ w.toNat ≤ 0x1F) ∨ (0x21 ≤ w.toNat ∧ w.toNat ≤ 0x2F) ∨
      (0x41 ≤ w.toNat ∧ w.toNat ≤ 0x4F) ∨ w.toNat = 0x60 ∨ (0x68 ≤ w.toNat ∧ w.toNat ≤ 0x6F) ∨
      (0x71 ≤ w.toNat ∧ w.toNat ≤ 0x7F) ∨ (0x81 ≤ w.toNat ∧ w.toNat ≤ 0x8F) ∨ 0x90 ≤ w.toNat)) ∧
  ∀ (s : State) (e : IllegalWord), s.Running → decode (s.prog[s.pc.toNat]'s.pc.isLt) = .error e →
    step s = .next { s.dropInput with status := { s.status with busy := false, fault := true, cause := 1#2 } }

/-- R58: each row's words decode to its operation; the columns `match` and `mask` select exactly the legal words; at most one
row selects a word; 44 words are legal. -/
def Obligations.OperationMapIsDecoded : Prop :=
  (decode 0x10#8 = .ok .init ∧ decode 0x20#8 = .ok .ldb ∧ (∀ t : Nibble, decode (0x30#8 + t.setWidth 8) = .ok (.bz t)) ∧
    decode 0x40#8 = .ok .mad ∧ (∀ t : Nibble, decode (0x50#8 + t.setWidth 8) = .ok (.br t)) ∧
    (∀ i : Nibble, 1 ≤ i.toNat → i.toNat ≤ 7 → decode (0x60#8 + i.setWidth 8) = .ok (.fold i)) ∧
    decode 0x70#8 = .ok .fin ∧ decode 0x80#8 = .ok .halt) ∧
  (∀ w : Byte, (∃ i, decode w = .ok i) ↔ ∃ r ∈ opcodeTable, r.selects w = true) ∧
  (∀ (w : Byte) (r q : OpcodeRow), r ∈ opcodeTable → q ∈ opcodeTable → r.selects w = true → q.selects w = true → r = q) ∧
  ((List.range 256).filter (fun n => (decodeTableWord 8 n).isSome)).length = 44

/-! ### The step of the machine (43_hash_run.md R102, R103; 30_encoding.md R57; 70_reset_and_hazards.md R140) -/

/-- R57: the step of a running core fetches the word at PC, decodes it, and performs the operation or raises ILLEGAL_OP; while
BUSY = 0 no operation is performed, so the only register a step without reset can change beside STATUS are PC and PTR, by START. -/
def Obligations.StepPerformsTheDecodedOperation : Prop :=
  (∀ s : State, s.Running →
    (∀ i, decode (s.prog[s.pc.toNat]'s.pc.isLt) = .ok i → step s = exec i s.dropInput) ∧
    (∀ e, decode (s.prog[s.pc.toNat]'s.pc.isLt) = .error e →
      step s = .next { s.dropInput with status := { s.status with busy := false, fault := true, cause := 1#2 } })) ∧
  ∀ s : State, s.status.busy = false → s.hostInput.quiet = true →
    step s = .next s.dropInput ∨ step s = .next (startEvent s.hostInput.base s.dropInput)

/-- R140: at a boundary with `rst` = 1 every register takes its reset value, whatever the core was doing and whatever `start`
carries, and neither memory is touched; nothing else clears FAULT or CAUSE. -/
def Obligations.ResetZeroesEveryRegister : Prop :=
  (∀ s : State, s.hostInput.rst = true → s.hostInput.fill = [] →
    step s = .next { s.dropInput with acc := 0#64, c := 0#8, ptr := 0, pc := 0#4, result := 0#8, status := ⟨false, false, false, 0#2⟩ }) ∧
  ∀ s t : State, s.hostInput.rst = false → s.status.legal = true → s.status.fault = true → step s = .next t →
    t.status.fault = true ∧ t.status.cause = s.status.cause

/-- R33: the state after reset holds 0 in every register. -/
def Obligations.ResetStateHoldsZeroInEveryRegister : Prop :=
  State.reset.acc = 0#64 ∧ State.reset.c = 0#8 ∧ State.reset.ptr = 0 ∧ State.reset.pc = 0#4 ∧ State.reset.result = 0#8 ∧
    State.reset.status.word = 0b00000#5

/-- R100: the control store holds the canonical image after reset, its words are the operations of the table, and no step of
the machine changes the control store. -/
def Obligations.ControlStoreHoldsTheCanonicalImage : Prop :=
  State.reset.prog.toList = [0x10#8, 0x20#8, 0x35#8, 0x40#8, 0x51#8, 0x61#8, 0x62#8, 0x63#8, 0x64#8, 0x65#8, 0x66#8,
    0x67#8, 0x70#8, 0x80#8, 0x00#8, 0x00#8] ∧
  (State.reset.prog.toList.map (fun w => decodeTableWord 8 w.toNat)) =
    [some .init, some .ldb, some (.bz 5#4), some .mad, some (.br 1#4), some (.fold 1#4), some (.fold 2#4), some (.fold 3#4),
      some (.fold 4#4), some (.fold 5#4), some (.fold 6#4), some (.fold 7#4), some .fin, some .halt, none, none] ∧
  ∀ s t : State, step s = .next t → t.prog = s.prog

/-- R102: the START event of an idle or ended core, with the AW-bit value on the port `base`; `start` does nothing to a faulted
core; during a run neither `start` nor `base` has an effect. -/
def Obligations.StartEventIsTakenOnlyWhenIdleOrEnded : Prop :=
  (∀ s : State, s.hostInput.quiet = true → s.status.busy = false → s.status.fault = false → s.hostInput.start = true →
    s.hostInput.base < 2 ^ s.aw →
    step s = .next { s.dropInput with
      pc := 0#4, ptr := s.hostInput.base, status := { s.status with busy := true, done := false } }) ∧
  (∀ s : State, s.hostInput.quiet = true → s.status.busy = false → s.status.fault = true → step s = .next s.dropInput) ∧
  (∀ (s : State) (p q : HostInput) (later : List HostInput), s.status.busy = true → p.quiet = true → q.quiet = true →
    step { s with inputs := p :: later } = step { s with inputs := q :: later })

/-- R103: what happens at a boundary, in its order: reset, a sequencer step, the START event, nothing; and a sequencer step of a
state of the hardware always gives a next state. -/
def Obligations.BoundaryEventsComeInTheirOrder : Prop :=
  (∀ s : State, s.hostInput.fill = [] →
    (s.hostInput.rst = true → step s = .next (resetEvent s.dropInput)) ∧
    (s.hostInput.rst = false → s.status.busy = true → step s = sequencerStep s.dropInput) ∧
    (s.hostInput.rst = false → s.status.busy = false → s.status.fault = false → s.hostInput.start = true →
      step s = .next (startEvent s.hostInput.base s.dropInput)) ∧
    (s.hostInput.rst = false → s.status.busy = false → (s.status.fault = true ∨ s.hostInput.start = false) →
      step s = .next s.dropInput)) ∧
  ∀ s : State, s.Inv → ∃ t, sequencerStep s = .next t

/-- Derived: in a state of the hardware, with a host that keeps its duties, a step always gives a next state. -/
def Obligations.StepIsTotalOnStatesOfTheHardware : Prop :=
  ∀ s : State, s.Inv → s.hostLawful = true → ∃ t, step s = .next t

/-- Derived (log 5): the host's write during a run is refused by name. -/
def Obligations.HostWriteDuringARunIsRefused : Prop :=
  ∀ (s : State) (a : Nat) (b : Byte) (more : List Host.Cell), s.status.busy = true → s.hostInput.fill = (a, b) :: more →
    step s = .refused (.hostWriteDuringRun a)

/-! ### The accumulator family (40_accumulate.md) -/

/-- R70: INIT writes 5381 to ACC and advances; at PC = 15 it raises PC_OVERRUN and ACC is not written. -/
def Obligations.InitSeedsTheAccumulator : Prop :=
  decode 0x10#8 = .ok .init ∧ ∀ s : State,
    (s.pc ≠ 15#4 → exec .init s = .next { s with acc := 5381#64, pc := s.pc + 1#4 }) ∧
    (s.pc = 15#4 → exec .init s = .next { s with status := { s.status with busy := false, fault := true, cause := 3#2 } })

/-- R71: LDB loads the byte at PTR into C and advances, PTR kept; at PC = 15 it raises PC_OVERRUN and C is not written. -/
def Obligations.LdbLoadsTheByteAtThePointer : Prop :=
  decode 0x20#8 = .ok .ldb ∧ ∀ s : State, s.ptr < 2 ^ s.aw →
    (s.pc ≠ 15#4 → exec .ldb s = .next { s with c := s.mem.read s.ptr, pc := s.pc + 1#4 }) ∧
    (s.pc = 15#4 → exec .ldb s = .next { s with status := { s.status with busy := false, fault := true, cause := 3#2 } })

/-- Derived (log 6): in a state that is none of the hardware, PTR not an AW-bit value, LDB stops by name. -/
def Obligations.LdbStopsAtAnAddressThatDoesNotExist : Prop :=
  ∀ s : State, 2 ^ s.aw ≤ s.ptr → exec .ldb s = .fault (.addressOutsideMemory s.ptr)

/-- R72: MAD computes ACC * 33 + C modulo 2^64 with C as a number 0 to 255, adds 1 to PTR and advances; INPUT_OVERRUN at the
top address is tested first, PC_OVERRUN second, and a fault writes neither ACC nor PTR. -/
def Obligations.MadAbsorbsTheByte : Prop :=
  decode 0x40#8 = .ok .mad ∧ ∀ s : State, s.ptr < 2 ^ s.aw →
    (s.ptr ≠ 2 ^ s.aw - 1 → s.pc ≠ 15#4 →
      exec .mad s = .next { s with acc := s.acc * 33#64 + BitVec.ofNat 64 s.c.toNat, ptr := s.ptr + 1, pc := s.pc + 1#4 }) ∧
    (s.ptr = 2 ^ s.aw - 1 →
      exec .mad s = .next { s with status := { s.status with busy := false, fault := true, cause := 2#2 } }) ∧
    (s.ptr ≠ 2 ^ s.aw - 1 → s.pc = 15#4 →
      exec .mad s = .next { s with status := { s.status with busy := false, fault := true, cause := 3#2 } })

/-- R76: the low byte after a MAD depends only on the low byte before it and on C; so lane 0 after any number of MADs depends
only on lane 0 before them and on the bytes absorbed. -/
def Obligations.LowByteOfMultiplyAddNeedsOnlyTheLowByte : Prop :=
  (∀ (a : Word) (c : Byte), (a * 33#64 + BitVec.ofNat 64 c.toNat).toNat % 256 = (a.toNat % 256 * 33 + c.toNat) % 256 ∧
    (multiplyAdd a c).toNat % 256 = (a.toNat % 256 * 33 + c.toNat) % 256) ∧
  ∀ (a b : Word) (absorbed : List Byte), lane 0 a = lane 0 b →
    lane 0 (absorbed.foldl multiplyAdd a) = lane 0 (absorbed.foldl multiplyAdd b)

/-- Derived from R77: ACC after MADs over the bytes of a string, as the closed sum modulo 2^64. -/
def Obligations.AccumulatorAfterBytesIsThePowerSum : Prop :=
  ∀ str : List Byte, (str.foldl multiplyAdd seed).toNat =
    (5381 * 33 ^ str.length +
      ((List.range str.length).map (fun k => (str.getD k 0#8).toNat * 33 ^ (str.length - 1 - k))).sum) % 2 ^ 64

/-- Derived from R77: for bytes 1 to 255 ACC after absorbing them is the unreduced value, below 2^64, up to 10 bytes; from the
11th byte on the unreduced value is above 2^64 and ACC differs from it. -/
def Obligations.AccumulatorWrapsFromTheEleventhByte : Prop :=
  ∀ str : List Byte, (∀ ch ∈ str, ch ≠ 0#8) →
    (str.length ≤ 10 → djb2Unreduced str < 2 ^ 64 ∧ (str.foldl multiplyAdd seed).toNat = djb2Unreduced str) ∧
    (11 ≤ str.length → 2 ^ 64 < djb2Unreduced str ∧ (str.foldl multiplyAdd seed).toNat ≠ djb2Unreduced str)

/-! ### The post-processor family (41_fold.md) -/

/-- R80: FOLD i by the document's own formula; PC_OVERRUN at PC = 15 with ACC not written; the words of stages outside 1 to 7 do
not decode and raise ILLEGAL_OP with ACC not written. -/
def Obligations.FoldAppliesTheStageFormula : Prop :=
  ∀ i : Nibble,
    (i.toNat = 0 ∨ 8 ≤ i.toNat → (∃ e, decode (0x60#8 + i.setWidth 8) = .error e) ∧
      ∀ s : State, s.Running → s.prog[s.pc.toNat]'s.pc.isLt = 0x60#8 + i.setWidth 8 →
        step s = .next { s.dropInput with status := { s.status with busy := false, fault := true, cause := 1#2 } }) ∧
    (1 ≤ i.toNat → i.toNat ≤ 7 → decode (0x60#8 + i.setWidth 8) = .ok (.fold i) ∧ ∀ s : State,
      (s.pc ≠ 15#4 →
        exec (.fold i) s = .next { s with
          acc := s.acc ^^^ ((s.acc &&& (0xFF#64 <<< (8 * i.toNat))) >>> (1#64 >>> (8 * i.toNat)).toNat), pc := s.pc + 1#4 }) ∧
      (s.pc = 15#4 →
        exec (.fold i) s = .next { s with status := { s.status with busy := false, fault := true, cause := 3#2 } }))

/-- Derived (log 7): performed with a stage number outside 1 to 7, FOLD is no operation and raises ILLEGAL_OP. -/
def Obligations.FoldOutsideTheStagesRaisesIllegalOp : Prop :=
  ∀ (s : State) (i : Nibble), (i.toNat = 0 ∨ 8 ≤ i.toNat) →
    exec (.fold i) s = .next { s with status := { s.status with busy := false, fault := true, cause := 1#2 } }

/-- R82: the two constants of each of the seven stages, and the lane that the mask covers. -/
def Obligations.StageConstantsAreThoseOfTheTable : Prop :=
  stageMask 1#4 = 0x000000000000FF00#64 ∧ stageMask 2#4 = 0x0000000000FF0000#64 ∧ stageMask 3#4 = 0x00000000FF000000#64 ∧
    stageMask 4#4 = 0x000000FF00000000#64 ∧ stageMask 5#4 = 0x0000FF0000000000#64 ∧ stageMask 6#4 = 0x00FF000000000000#64 ∧
    stageMask 7#4 = 0xFF00000000000000#64 ∧ ∀ i : Nibble, 1 ≤ i.toNat → i.toNat ≤ 7 →
      stageShift i = 0 ∧ ∀ k : Fin 8, lane k.val (stageMask i) = if k.val = i.toNat then 0xFF#8 else 0x00#8

/-- R84: the three forms of the stage are equal, and FOLD i clears byte lane i and leaves the other seven lanes, lane 0 among
them, as they were. -/
def Obligations.FoldClearsItsLaneAndNoOther : Prop :=
  ∀ i : Nibble, 1 ≤ i.toNat → i.toNat ≤ 7 →
    (∀ a : Word, a ^^^ ((a &&& stageMask i) >>> 0) = a ^^^ (a &&& stageMask i) ∧
      a ^^^ (a &&& stageMask i) = a &&& ~~~(stageMask i)) ∧
    ∀ s : State, s.pc ≠ 15#4 →
      ∃ t, exec (.fold i) s = .next t ∧ t.acc = foldStage i s.acc ∧ t.acc = s.acc &&& ~~~(stageMask i) ∧
        lane i.toNat t.acc = 0#8 ∧ ∀ k, k < 8 → k ≠ i.toNat → lane k t.acc = lane k s.acc

/-- R86: after FOLD 1 to FOLD 7 in that order ACC is its low byte, zero-extended; after stages 1 to `j` alone lanes 1 to `j` are
0 and the others hold their old values. -/
def Obligations.SevenStagesLeaveTheLowByte : Prop :=
  ∀ a : Word,
    [1#4, 2#4, 3#4, 4#4, 5#4, 6#4, 7#4].foldl (fun x i => foldStage i x) a = BitVec.ofNat 64 (a.toNat % 256) ∧
    ∀ j k : Nat, j ≤ 7 → k ≤ 7 →
      lane k (([1#4, 2#4, 3#4, 4#4, 5#4, 6#4, 7#4].take j).foldl (fun x i => foldStage i x) a) =
        if 1 ≤ k ∧ k ≤ j then 0#8 else lane k a

/-- R87: the stages commute and each is idempotent, so in every order the seven of them leave ACC & 0xFF. -/
def Obligations.StagesCommuteAndAreIdempotent : Prop :=
  (∀ (a : Word) (i j : Nibble), 1 ≤ i.toNat → i.toNat ≤ 7 → 1 ≤ j.toNat → j.toNat ≤ 7 →
    foldStage i (foldStage j a) = foldStage j (foldStage i a) ∧ foldStage i (foldStage i a) = foldStage i a) ∧
  ∀ (a : Word) (order : List Nibble), order.Perm [1#4, 2#4, 3#4, 4#4, 5#4, 6#4, 7#4] →
    order.foldl (fun x i => foldStage i x) a = a &&& 0x00000000000000FF#64

/-- R81: FIN writes the low byte of ACC to RESULT and advances, ACC kept; PC_OVERRUN at PC = 15 with RESULT not written. -/
def Obligations.FinDeliversTheLowByte : Prop :=
  decode 0x70#8 = .ok .fin ∧ ∀ s : State,
    (s.pc ≠ 15#4 → exec .fin s = .next { s with result := BitVec.ofNat 8 (s.acc.toNat % 256), pc := s.pc + 1#4 }) ∧
    (s.pc = 15#4 → exec .fin s = .next { s with status := { s.status with busy := false, fault := true, cause := 3#2 } })

/-- R88: FIN gives the same RESULT on a value and on that value after the seven stages. -/
def Obligations.PostProcessDoesNotChangeTheResult : Prop :=
  ∀ a : Word,
    finalMask ([1#4, 2#4, 3#4, 4#4, 5#4, 6#4, 7#4].foldl (fun x i => foldStage i x) a) = finalMask a ∧
      finalMask a = a.extractLsb' 0 8

/-! ### The control family (42_control.md) -/

/-- R91: BZ branches exactly when the whole byte C is 0; only a BZ that does not branch can raise PC_OVERRUN. -/
def Obligations.BzBranchesOnAZeroByte : Prop :=
  ∀ t : Nibble, decode (0x30#8 + t.setWidth 8) = .ok (.bz t) ∧ ∀ s : State,
    (s.c = 0#8 → exec (.bz t) s = .next { s with pc := t }) ∧
    (s.c ≠ 0#8 → s.pc ≠ 15#4 → exec (.bz t) s = .next { s with pc := s.pc + 1#4 }) ∧
    (s.c ≠ 0#8 → s.pc = 15#4 →
      exec (.bz t) s = .next { s with status := { s.status with busy := false, fault := true, cause := 3#2 } })

/-- R92: BR jumps to its target from every PC and changes nothing else. -/
def Obligations.BrJumpsToItsTarget : Prop :=
  ∀ t : Nibble, decode (0x50#8 + t.setWidth 8) = .ok (.br t) ∧ ∀ s : State, exec (.br t) s = .next { s with pc := t }

/-- R93: HALT clears BUSY and sets DONE from every PC, PC kept, and changes nothing else; after it the sequencer takes no step
until a START event, which restarts at address 0. -/
def Obligations.HaltEndsTheRun : Prop :=
  decode 0x80#8 = .ok .halt ∧ ∀ s : State,
    exec .halt s = .next { s with status := { s.status with busy := false, done := true } } ∧
    ∀ t, exec .halt s = .next t → t.hostInput.quiet = true →
      (t.hostInput.start = false → step t = .next t.dropInput) ∧
      (t.hostInput.start = true → s.status.fault = false → ∃ u, step t = .next u ∧ u.pc = 0#4 ∧ u.status.busy = true)

/-- Derived from R92 and R129: a core whose word at PC is BR to PC itself hangs: only the host's inputs pass. -/
def Obligations.BranchToItselfHangs : Prop :=
  ∀ (k : Nat) (s : State), s.status.busy = true → decode (s.prog[s.pc.toNat]'s.pc.isLt) = .ok (.br s.pc) →
    s.quietFor k = true → runSteps k s = .next { s with inputs := s.inputs.drop k }

/-! ### Frames (10_state.md R21 to R26, R32; 20_memory.md R43, R44) -/

/-- Derived from the table of R32: what each operation leaves unchanged. A fault entry writes STATUS alone. -/
def Obligations.OperationsWriteOnlyTheirRow : Prop :=
  ∀ (i : Instr) (s t : State), exec i s = .next t →
    t.aw = s.aw ∧ t.prog = s.prog ∧ t.inputs = s.inputs ∧ (∀ a, t.mem.read a = s.mem.read a) ∧
    (i ≠ .init → i ≠ .mad → (∀ k, i ≠ .fold k) → t.acc = s.acc) ∧
    (i ≠ .ldb → t.c = s.c) ∧ (i ≠ .mad → t.ptr = s.ptr) ∧ (i ≠ .fin → t.result = s.result) ∧
    (i = .halt → t = { s with status := { s.status with busy := false, done := true } }) ∧
    (i ≠ .halt → t.status = s.status ∨ ∃ cause : FaultCause,
      t = { s with status := { s.status with busy := false, fault := true, cause := cause.code } })

/-- Derived: an operation other than LDB does not depend on the input memory, and LDB depends on the byte at PTR alone. -/
def Obligations.OnlyLdbReadsMemoryAndOnlyAtThePointer : Prop :=
  ∀ (i : Instr) (s t : State) (m : Memory), (i = .ldb → m.read s.ptr = s.mem.read s.ptr) → exec i s = .next t →
    exec i { s with mem := m } = .next { t with mem := m }

/-- R44: a step of the machine changes no byte of the input memory that the host did not write, and during a run none; nor does
it change the control store or AW. -/
def Obligations.TheCoreNeverWritesMemory : Prop :=
  ∀ s t : State, step s = .next t →
    t.prog = s.prog ∧ t.aw = s.aw ∧ (s.status.busy = true → t.mem = s.mem) ∧
      ∀ a, (∀ b, (a, b) ∉ s.hostInput.fill) → t.mem.read a = s.mem.read a

/-- Derived from R144 (row `fill input`): in a state of the hardware the host's writes land: each address holds the last byte written to it, else its old byte. -/
def Obligations.HostWritesLandInTheInputMemory : Prop :=
  ∀ s : State, s.Inv → s.status.busy = false → s.hostLawful = true →
    ∃ t, step s = .next t ∧
      ∀ a, t.mem.read a = ((s.hostInput.fill.reverse.find? (fun cell => cell.1 == a)).map (fun cell => cell.2)).getD (s.mem.read a)

/-- Derived from R21 to R25: without a reset each register changes only where its writers act. -/
def Obligations.RegistersChangeOnlyByTheirWriters : Prop :=
  ∀ s t : State, step s = .next t → s.hostInput.rst = false →
    (t.acc ≠ s.acc → s.status.busy = true ∧
      (decode s.fetch = .ok .init ∨ decode s.fetch = .ok .mad ∨ ∃ k, decode s.fetch = .ok (.fold k))) ∧
    (t.c ≠ s.c → s.status.busy = true ∧ decode s.fetch = .ok .ldb) ∧
    (t.ptr ≠ s.ptr → (s.status.busy = true ∧ decode s.fetch = .ok .mad) ∨
      (s.status.busy = false ∧ s.status.fault = false ∧ s.hostInput.start = true)) ∧
    (t.result ≠ s.result → s.status.busy = true ∧ decode s.fetch = .ok .fin)

/-! ### Faults and status (60_exceptions.md, 10_state.md R26, R27) -/

/-- R121: which step raises which cause, in a state of the hardware. -/
def Obligations.CausesAreRaisedExactlyAsTheTableSays : Prop :=
  ∀ s t : State, s.Inv → s.Running → step s = .next t →
    (t.status.cause = 0#2 ↔ t.status.fault = false) ∧
    (t.status.cause = 1#2 ↔ ∃ e, decode s.fetch = .error e) ∧
    (t.status.cause = 2#2 ↔ decode s.fetch = .ok .mad ∧ s.ptr = 2 ^ s.aw - 1) ∧
    (t.status.cause = 3#2 ↔ s.pc = 15#4 ∧
      (decode s.fetch = .ok .init ∨ decode s.fetch = .ok .ldb ∨ (decode s.fetch = .ok .mad ∧ s.ptr ≠ 2 ^ s.aw - 1) ∨
        (∃ k, decode s.fetch = .ok (.fold k)) ∨ decode s.fetch = .ok .fin ∨
        (s.c ≠ 0#8 ∧ ∃ a, decode s.fetch = .ok (.bz a))))

/-- R124: a step that sets FAULT writes STATUS.BUSY, FAULT and CAUSE and nothing else, and the cause is not 0. -/
def Obligations.FaultEntryIsPrecise : Prop :=
  ∀ s t : State, step s = .next t → s.status.fault = false → t.status.fault = true →
    t = { s.dropInput with status := { s.status with busy := false, fault := true, cause := t.status.cause } } ∧
      t.status.cause ≠ 0#2

/-- R125: a faulted core keeps every register until a reset, however often `start` is raised. -/
def Obligations.FaultIsStickyUntilReset : Prop :=
  ∀ (k : Nat) (s t : State), s.status.busy = false → s.status.fault = true → (∀ inp ∈ s.inputs.take k, inp.rst = false) →
    runSteps k s = .next t →
    t.status = s.status ∧ t.pc = s.pc ∧ t.acc = s.acc ∧ t.c = s.c ∧ t.ptr = s.ptr ∧ t.result = s.result ∧
      (s.status.legal = true → t.status.done = false)

/-- R27: STATUS takes its six values only, a step leads from each of the four states only to those the table names, and a reset
leads to IDLE. -/
def Obligations.StatusMovesOnlyAlongTheFourStates : Prop :=
  ∀ s t : State, s.status.word ∈ [0b00000#5, 0b00001#5, 0b00010#5, 0b01100#5, 0b10100#5, 0b11100#5] → step s = .next t →
    (s.hostInput.rst = true → t.status.word = 0b00000#5) ∧
    (s.hostInput.rst = false →
      (s.status.word = 0b00000#5 → t.status.word = 0b00000#5 ∨ t.status.word = 0b00001#5) ∧
      (s.status.word = 0b00001#5 → t.status.word = 0b00001#5 ∨ t.status.word = 0b00010#5 ∨ t.status.word = 0b01100#5 ∨
        t.status.word = 0b10100#5 ∨ t.status.word = 0b11100#5) ∧
      (s.status.word = 0b00010#5 → t.status.word = 0b00010#5 ∨ t.status.word = 0b00001#5) ∧
      (s.status.word = 0b01100#5 ∨ s.status.word = 0b10100#5 ∨ s.status.word = 0b11100#5 → t.status.word = s.status.word))

/-! ### Invariants -/

/-- Every step keeps the states of the hardware: AW at least 1, PTR an AW-bit value, the input memory in its canonical form
inside its address space, STATUS one of the six values of R27. -/
def Obligations.EveryStepKeepsTheInvariant : Prop :=
  ∀ s t : State, s.Inv → step s = .next t → t.Inv

/-- The state after reset is a state of the hardware. -/
def Obligations.ResetStateMeetsTheInvariant : Prop :=
  State.reset.Inv

/-! ### The canonical run and the contract (43_hash_run.md) -/

/-- Derived from R45 and R46: the input string is what stands from `b` up to and excluding the first 0, whatever follows it. -/
def Obligations.InputStringEndsBeforeTheFirstZero : Prop :=
  ∀ (s : State) (b : Nat) (str : List Byte),
    s.cstr b = some str ↔
      (b + str.length < 2 ^ s.aw ∧ s.mem.bytes b str.length = str ∧ (∀ ch ∈ str, ch ≠ 0#8) ∧
        s.mem.read (b + str.length) = 0#8)

/-- Derived from R105: the loop invariant, at each arrival at address 1 after `k` bytes. -/
def Obligations.LoopInvariantOfTheCanonicalRun : Prop :=
  ∀ (s : State) (b k : Nat) (str : List Byte), s.cstr b = some str → k ≤ str.length → s.StartsCanonicalRun b (4 * k + 1) →
    ∃ t, runSteps (4 * k + 2) s = .next t ∧ t.pc = 1#4 ∧ t.ptr = b + k ∧ t.acc = djb2 (str.take k) ∧
      t.status.word = 0b00001#5

/-- R110, R106: a START event with a terminated input ends normally after exactly `4n + 12` operations (the run is in progress
at every boundary before), with the hash in RESULT and every register as R106 says; the parameters and the input memory are as
before. -/
def Obligations.CanonicalRunComputesTheHash : Prop :=
  ∀ (s : State) (b : Nat) (str : List Byte), s.cstr b = some str → s.StartsCanonicalRun b (4 * str.length + 12) →
    (∀ k, 1 ≤ k → k ≤ 4 * str.length + 12 → ∃ t, runSteps k s = .next t ∧ t.status.word = 0b00001#5) ∧
    runSteps (4 * str.length + 13) s = .next { s with
      pc := 13#4, acc := BitVec.ofNat 64 (stringHash str).toNat, c := 0#8, ptr := b + str.length, result := stringHash str,
      status := ⟨false, true, false, 0#2⟩, inputs := s.inputs.drop (4 * str.length + 13) }

/-- R107: on an unterminated input the run ends in INPUT_OVERRUN after exactly the steps R107 counts, with the state it gives and
RESULT unchanged. -/
def Obligations.UnterminatedRunEndsInInputOverrun : Prop :=
  ∀ (s : State) (b : Nat), s.cstr b = none → s.StartsCanonicalRun b (4 * (2 ^ s.aw - 1 - b) + 4) →
    (∀ k, 1 ≤ k → k ≤ 4 * (2 ^ s.aw - 1 - b) + 4 → ∃ t, runSteps k s = .next t ∧ t.status.word = 0b00001#5) ∧
    runSteps (4 * (2 ^ s.aw - 1 - b) + 5) s = .next { s with
      pc := 3#4, ptr := 2 ^ s.aw - 1, c := s.mem.read (2 ^ s.aw - 1), acc := djb2 (s.mem.bytes b (2 ^ s.aw - 1 - b)),
      status := ⟨false, false, true, 2#2⟩, inputs := s.inputs.drop (4 * (2 ^ s.aw - 1 - b) + 5) }

/-- Derived from R129: with the canonical image no run hangs: every run ends within `4 * (2^AW - 1) + 12` operations. -/
def Obligations.CanonicalRunNeverHangs : Prop :=
  ∀ (s : State) (b : Nat), s.StartsCanonicalRun b (4 * (2 ^ s.aw - 1) + 12) →
    ∃ k t, 1 ≤ k ∧ k ≤ 4 * (2 ^ s.aw - 1) + 13 ∧ runSteps k s = .next t ∧ t.status.busy = false

/-- Derived from R43: a canonical run reads the addresses from `b` to the terminator, ascending, each once. -/
def Obligations.CanonicalRunReadsEachAddressOnce : Prop :=
  ∀ (s : State) (b : Nat) (str : List Byte), s.cstr b = some str → s.StartsCanonicalRun b (4 * str.length + 12) →
    readTrace (4 * str.length + 13) s = (List.range (str.length + 1)).map (fun k => b + k)

/-- R111: two runs on the same input string deliver the same RESULT, whatever registers, AW, memories and `base` they have. -/
def Obligations.ResultDependsOnTheInputStringAlone : Prop :=
  ∀ (s u : State) (b d : Nat) (str : List Byte), s.cstr b = some str → u.cstr d = some str →
    s.StartsCanonicalRun b (4 * str.length + 12) → u.StartsCanonicalRun d (4 * str.length + 12) →
    ∃ t v, runSteps (4 * str.length + 13) s = .next t ∧ runSteps (4 * str.length + 13) u = .next v ∧
      t.result = v.result ∧ t.status.word = 0b00010#5 ∧ v.status.word = 0b00010#5

/-- R112: a memory that holds `str`, a 0 and then anything from `b` on gives the hash of `str`. -/
def Obligations.EmbeddedZeroTruncatesTheInput : Prop :=
  ∀ (s : State) (b : Nat) (str rest : List Byte), (∀ ch ∈ str, ch ≠ 0#8) → b + str.length < 2 ^ s.aw →
    s.mem.bytes b (str.length + 1 + rest.length) = str ++ 0#8 :: rest → s.StartsCanonicalRun b (4 * str.length + 12) →
    ∃ t, runSteps (4 * str.length + 13) s = .next t ∧ t.result = stringHash str ∧ t.status.word = 0b00010#5

/-- R113: the hash is in 0 to 255 and does not depend on the accumulator's width, from 8 bits on. -/
def Obligations.HashDoesNotDependOnTheWidth : Prop :=
  (∀ str : List Byte, (stringHash str).toNat ≤ 255) ∧ ∀ (width : Nat) (str : List Byte), 8 ≤ width →
    (str.foldl (fun h ch => h * 33 + BitVec.ofNat width ch.toNat) (BitVec.ofNat width 5381)).toNat % 256 = (stringHash str).toNat

/-- Derived from R114: sign-extending the byte would change ACC for some input and RESULT for none. -/
def Obligations.SignExtensionCannotBeSeenInTheResult : Prop :=
  (∀ str : List Byte, BitVec.ofNat 8 ((djb2SignExtended str).toNat % 256) = stringHash str) ∧
    ∃ str : List Byte, djb2SignExtended str ≠ djb2 str

/-- R115: the two pinned values, and the run whose first byte is 0. -/
def Obligations.PinnedHashValues : Prop :=
  (stringHash [] = 5#8 ∧ 5381 % 256 = 5 ∧
    djb2 [102#8, 108#8, 111#8, 97#8, 116#8, 51#8, 50#8] = 229465933265696#64 ∧
    stringHash [102#8, 108#8, 111#8, 97#8, 116#8, 51#8, 50#8] = 32#8) ∧
  ∀ (s : State) (b : Nat), s.mem.read b = 0#8 → s.StartsCanonicalRun b 12 →
    ∃ t, runSteps 13 s = .next t ∧ t.result = 5#8 ∧ t.status.word = 0b00010#5

/-! ### The assembler (30_encoding.md R62) and the model's own interface -/

/-- Derived from R62: an operation other than `.word` assembles to a legal word or is rejected. -/
def Obligations.AssemblerEmitsIllegalWordsOnlyByDirective : Prop :=
  ∀ (labels : List (List Char × Nat)) (op : AsmOp) (w : Byte), assembleOp labels op = .ok w → (∀ v, op ≠ .word v) →
    ∃ i, decode w = .ok i ∧ i.wellFormed = true

/-- Derived (log 2): the step after placing an operation's word runs exactly that operation. -/
def Obligations.PlacedWordIsPerformedByTheNextStep : Prop :=
  ∀ (s : State) (i : Instr), i.wellFormed = true →
    step (s.withFetchWord 8 (encode i).toNat) =
      exec i { s with prog := s.prog.set s.pc.toNat (encode i) s.pc.isLt, status := ⟨true, false, false, 0#2⟩ }

/-! ### Boundaries that also carry host writes (log 4; 70_reset_and_hazards.md R144) -/

/-- Derived, with the order that log 4 chooses: while BUSY = 0 the host's writes land, changing the input memory alone, and then
the boundary's event has the effect it has without them: reset (R140), the START event (R102), or nothing (R103). -/
def Obligations.HostWritesPrecedeTheEventOfTheirBoundary : Prop :=
  (∀ s : State, s.status.busy = false → s.hostLawful = true → ∃ u, hostFill s.hostInput.fill s.dropInput = .next u) ∧
  ∀ s u : State, s.status.busy = false → hostFill s.hostInput.fill s.dropInput = .next u →
    u = { s.dropInput with mem := u.mem } ∧
    (s.hostInput.rst = true →
      step s = .next { u with acc := 0#64, c := 0#8, ptr := 0, pc := 0#4, result := 0#8, status := ⟨false, false, false, 0#2⟩ }) ∧
    (s.hostInput.rst = false → s.status.fault = false → s.hostInput.start = true → s.hostInput.base < 2 ^ s.aw →
      step s = .next { u with
        pc := 0#4, ptr := s.hostInput.base, status := { s.status with busy := true, done := false } }) ∧
    (s.hostInput.rst = false → (s.status.fault = true ∨ s.hostInput.start = false) → step s = .next u)

/-- Derived from R116 and R110, with the order that log 4 chooses: a string that the host writes at the boundary of the START
event is the string that the run hashes. -/
def Obligations.RunHashesTheInputWrittenAtItsStart : Prop :=
  ∀ (s u : State) (b : Nat) (str : List Byte), s.prog = Config.canonicalImage →
    (s.status = Status.idle ∨ s.status = Status.ended) → hostFill s.hostInput.fill s.dropInput = .next u →
    s.hostInput.rst = false → s.hostInput.start = true → s.hostInput.base = b → b < 2 ^ s.aw → u.cstr b = some str →
    u.quietFor (4 * str.length + 12) = true →
    runSteps (4 * str.length + 13) s = .next { u with
      pc := 13#4, acc := BitVec.ofNat 64 (stringHash str).toNat, c := 0#8, ptr := b + str.length, result := stringHash str,
      status := ⟨false, true, false, 0#2⟩, inputs := s.inputs.drop (4 * str.length + 13) }
end

