-- ==== Sys2Proof/Laws/State.lean ====
section
/-! SUPPORT. One lemma per field of State per update of it, so that no proof unfolds a record update. -/

namespace Sys2Proof.Machine

@[simp] theorem State.setAcc_acc (s : State) (v : Word) : (s.setAcc v).acc = v := rfl
@[simp] theorem State.setAcc_c (s : State) (v : Word) : (s.setAcc v).c = s.c := rfl
@[simp] theorem State.setAcc_ptr (s : State) (v : Word) : (s.setAcc v).ptr = s.ptr := rfl
@[simp] theorem State.setAcc_pc (s : State) (v : Word) : (s.setAcc v).pc = s.pc := rfl
@[simp] theorem State.setAcc_result (s : State) (v : Word) : (s.setAcc v).result = s.result := rfl
@[simp] theorem State.setAcc_status (s : State) (v : Word) : (s.setAcc v).status = s.status := rfl
@[simp] theorem State.setAcc_prog (s : State) (v : Word) : (s.setAcc v).prog = s.prog := rfl
@[simp] theorem State.setAcc_mem (s : State) (v : Word) : (s.setAcc v).mem = s.mem := rfl
@[simp] theorem State.setAcc_aw (s : State) (v : Word) : (s.setAcc v).aw = s.aw := rfl
@[simp] theorem State.setAcc_inputs (s : State) (v : Word) : (s.setAcc v).inputs = s.inputs := rfl

@[simp] theorem State.setC_acc (s : State) (v : Byte) : (s.setC v).acc = s.acc := rfl
@[simp] theorem State.setC_c (s : State) (v : Byte) : (s.setC v).c = v := rfl
@[simp] theorem State.setC_ptr (s : State) (v : Byte) : (s.setC v).ptr = s.ptr := rfl
@[simp] theorem State.setC_pc (s : State) (v : Byte) : (s.setC v).pc = s.pc := rfl
@[simp] theorem State.setC_result (s : State) (v : Byte) : (s.setC v).result = s.result := rfl
@[simp] theorem State.setC_status (s : State) (v : Byte) : (s.setC v).status = s.status := rfl
@[simp] theorem State.setC_prog (s : State) (v : Byte) : (s.setC v).prog = s.prog := rfl
@[simp] theorem State.setC_mem (s : State) (v : Byte) : (s.setC v).mem = s.mem := rfl
@[simp] theorem State.setC_aw (s : State) (v : Byte) : (s.setC v).aw = s.aw := rfl
@[simp] theorem State.setC_inputs (s : State) (v : Byte) : (s.setC v).inputs = s.inputs := rfl

@[simp] theorem State.setPtr_acc (s : State) (v : Nat) : (s.setPtr v).acc = s.acc := rfl
@[simp] theorem State.setPtr_c (s : State) (v : Nat) : (s.setPtr v).c = s.c := rfl
@[simp] theorem State.setPtr_ptr (s : State) (v : Nat) : (s.setPtr v).ptr = v % 2 ^ s.aw := rfl
@[simp] theorem State.setPtr_pc (s : State) (v : Nat) : (s.setPtr v).pc = s.pc := rfl
@[simp] theorem State.setPtr_result (s : State) (v : Nat) : (s.setPtr v).result = s.result := rfl
@[simp] theorem State.setPtr_status (s : State) (v : Nat) : (s.setPtr v).status = s.status := rfl
@[simp] theorem State.setPtr_prog (s : State) (v : Nat) : (s.setPtr v).prog = s.prog := rfl
@[simp] theorem State.setPtr_mem (s : State) (v : Nat) : (s.setPtr v).mem = s.mem := rfl
@[simp] theorem State.setPtr_aw (s : State) (v : Nat) : (s.setPtr v).aw = s.aw := rfl
@[simp] theorem State.setPtr_inputs (s : State) (v : Nat) : (s.setPtr v).inputs = s.inputs := rfl

@[simp] theorem State.setPc_acc (s : State) (v : Nibble) : (s.setPc v).acc = s.acc := rfl
@[simp] theorem State.setPc_c (s : State) (v : Nibble) : (s.setPc v).c = s.c := rfl
@[simp] theorem State.setPc_ptr (s : State) (v : Nibble) : (s.setPc v).ptr = s.ptr := rfl
@[simp] theorem State.setPc_pc (s : State) (v : Nibble) : (s.setPc v).pc = v := rfl
@[simp] theorem State.setPc_result (s : State) (v : Nibble) : (s.setPc v).result = s.result := rfl
@[simp] theorem State.setPc_status (s : State) (v : Nibble) : (s.setPc v).status = s.status := rfl
@[simp] theorem State.setPc_prog (s : State) (v : Nibble) : (s.setPc v).prog = s.prog := rfl
@[simp] theorem State.setPc_mem (s : State) (v : Nibble) : (s.setPc v).mem = s.mem := rfl
@[simp] theorem State.setPc_aw (s : State) (v : Nibble) : (s.setPc v).aw = s.aw := rfl
@[simp] theorem State.setPc_inputs (s : State) (v : Nibble) : (s.setPc v).inputs = s.inputs := rfl

@[simp] theorem State.setResult_acc (s : State) (v : Byte) : (s.setResult v).acc = s.acc := rfl
@[simp] theorem State.setResult_c (s : State) (v : Byte) : (s.setResult v).c = s.c := rfl
@[simp] theorem State.setResult_ptr (s : State) (v : Byte) : (s.setResult v).ptr = s.ptr := rfl
@[simp] theorem State.setResult_pc (s : State) (v : Byte) : (s.setResult v).pc = s.pc := rfl
@[simp] theorem State.setResult_result (s : State) (v : Byte) : (s.setResult v).result = v := rfl
@[simp] theorem State.setResult_status (s : State) (v : Byte) : (s.setResult v).status = s.status := rfl
@[simp] theorem State.setResult_prog (s : State) (v : Byte) : (s.setResult v).prog = s.prog := rfl
@[simp] theorem State.setResult_mem (s : State) (v : Byte) : (s.setResult v).mem = s.mem := rfl
@[simp] theorem State.setResult_aw (s : State) (v : Byte) : (s.setResult v).aw = s.aw := rfl
@[simp] theorem State.setResult_inputs (s : State) (v : Byte) : (s.setResult v).inputs = s.inputs := rfl

@[simp] theorem State.setStatus_acc (s : State) (v : Status) : (s.setStatus v).acc = s.acc := rfl
@[simp] theorem State.setStatus_c (s : State) (v : Status) : (s.setStatus v).c = s.c := rfl
@[simp] theorem State.setStatus_ptr (s : State) (v : Status) : (s.setStatus v).ptr = s.ptr := rfl
@[simp] theorem State.setStatus_pc (s : State) (v : Status) : (s.setStatus v).pc = s.pc := rfl
@[simp] theorem State.setStatus_result (s : State) (v : Status) : (s.setStatus v).result = s.result := rfl
@[simp] theorem State.setStatus_status (s : State) (v : Status) : (s.setStatus v).status = v := rfl
@[simp] theorem State.setStatus_prog (s : State) (v : Status) : (s.setStatus v).prog = s.prog := rfl
@[simp] theorem State.setStatus_mem (s : State) (v : Status) : (s.setStatus v).mem = s.mem := rfl
@[simp] theorem State.setStatus_aw (s : State) (v : Status) : (s.setStatus v).aw = s.aw := rfl
@[simp] theorem State.setStatus_inputs (s : State) (v : Status) : (s.setStatus v).inputs = s.inputs := rfl

@[simp] theorem State.setMem_acc (s : State) (v : Memory) : (s.setMem v).acc = s.acc := rfl
@[simp] theorem State.setMem_c (s : State) (v : Memory) : (s.setMem v).c = s.c := rfl
@[simp] theorem State.setMem_ptr (s : State) (v : Memory) : (s.setMem v).ptr = s.ptr := rfl
@[simp] theorem State.setMem_pc (s : State) (v : Memory) : (s.setMem v).pc = s.pc := rfl
@[simp] theorem State.setMem_result (s : State) (v : Memory) : (s.setMem v).result = s.result := rfl
@[simp] theorem State.setMem_status (s : State) (v : Memory) : (s.setMem v).status = s.status := rfl
@[simp] theorem State.setMem_prog (s : State) (v : Memory) : (s.setMem v).prog = s.prog := rfl
@[simp] theorem State.setMem_mem (s : State) (v : Memory) : (s.setMem v).mem = v := rfl
@[simp] theorem State.setMem_aw (s : State) (v : Memory) : (s.setMem v).aw = s.aw := rfl
@[simp] theorem State.setMem_inputs (s : State) (v : Memory) : (s.setMem v).inputs = s.inputs := rfl

@[simp] theorem State.dropInput_acc (s : State) : s.dropInput.acc = s.acc := rfl
@[simp] theorem State.dropInput_c (s : State) : s.dropInput.c = s.c := rfl
@[simp] theorem State.dropInput_ptr (s : State) : s.dropInput.ptr = s.ptr := rfl
@[simp] theorem State.dropInput_pc (s : State) : s.dropInput.pc = s.pc := rfl
@[simp] theorem State.dropInput_result (s : State) : s.dropInput.result = s.result := rfl
@[simp] theorem State.dropInput_status (s : State) : s.dropInput.status = s.status := rfl
@[simp] theorem State.dropInput_prog (s : State) : s.dropInput.prog = s.prog := rfl
@[simp] theorem State.dropInput_mem (s : State) : s.dropInput.mem = s.mem := rfl
@[simp] theorem State.dropInput_aw (s : State) : s.dropInput.aw = s.aw := rfl
@[simp] theorem State.dropInput_inputs (s : State) : s.dropInput.inputs = s.inputs.tail := rfl

@[simp] theorem resetEvent_acc (s : State) : (resetEvent s).acc = 0#64 := rfl
@[simp] theorem resetEvent_c (s : State) : (resetEvent s).c = 0#8 := rfl
@[simp] theorem resetEvent_ptr (s : State) : (resetEvent s).ptr = 0 := rfl
@[simp] theorem resetEvent_pc (s : State) : (resetEvent s).pc = 0#4 := rfl
@[simp] theorem resetEvent_result (s : State) : (resetEvent s).result = 0#8 := rfl
@[simp] theorem resetEvent_status (s : State) : (resetEvent s).status = Status.idle := rfl
@[simp] theorem resetEvent_prog (s : State) : (resetEvent s).prog = s.prog := rfl
@[simp] theorem resetEvent_mem (s : State) : (resetEvent s).mem = s.mem := rfl
@[simp] theorem resetEvent_aw (s : State) : (resetEvent s).aw = s.aw := rfl
@[simp] theorem resetEvent_inputs (s : State) : (resetEvent s).inputs = s.inputs := rfl

@[simp] theorem startEvent_acc (base : Nat) (s : State) : (startEvent base s).acc = s.acc := rfl
@[simp] theorem startEvent_c (base : Nat) (s : State) : (startEvent base s).c = s.c := rfl
@[simp] theorem startEvent_ptr (base : Nat) (s : State) : (startEvent base s).ptr = base % 2 ^ s.aw := rfl
@[simp] theorem startEvent_pc (base : Nat) (s : State) : (startEvent base s).pc = 0#4 := rfl
@[simp] theorem startEvent_result (base : Nat) (s : State) : (startEvent base s).result = s.result := rfl
@[simp] theorem startEvent_status (base : Nat) (s : State) : (startEvent base s).status = s.status.started := rfl
@[simp] theorem startEvent_prog (base : Nat) (s : State) : (startEvent base s).prog = s.prog := rfl
@[simp] theorem startEvent_mem (base : Nat) (s : State) : (startEvent base s).mem = s.mem := rfl
@[simp] theorem startEvent_aw (base : Nat) (s : State) : (startEvent base s).aw = s.aw := rfl
@[simp] theorem startEvent_inputs (base : Nat) (s : State) : (startEvent base s).inputs = s.inputs := rfl

@[simp] theorem Status.faulted_busy (x : Status) (cause : FaultCause) : (x.faulted cause).busy = false := rfl
@[simp] theorem Status.faulted_done (x : Status) (cause : FaultCause) : (x.faulted cause).done = x.done := rfl
@[simp] theorem Status.faulted_fault (x : Status) (cause : FaultCause) : (x.faulted cause).fault = true := rfl
@[simp] theorem Status.faulted_cause (x : Status) (cause : FaultCause) : (x.faulted cause).cause = cause.code := rfl
@[simp] theorem Status.halted_busy (x : Status) : (x.halted).busy = false := rfl
@[simp] theorem Status.halted_done (x : Status) : (x.halted).done = true := rfl
@[simp] theorem Status.halted_fault (x : Status) : (x.halted).fault = x.fault := rfl
@[simp] theorem Status.halted_cause (x : Status) : (x.halted).cause = x.cause := rfl
@[simp] theorem Status.started_busy (x : Status) : (x.started).busy = true := rfl
@[simp] theorem Status.started_done (x : Status) : (x.started).done = false := rfl
@[simp] theorem Status.started_fault (x : Status) : (x.started).fault = x.fault := rfl
@[simp] theorem Status.started_cause (x : Status) : (x.started).cause = x.cause := rfl

end Sys2Proof.Machine
end

