-- ==== Sys2Proof/Laws/Ops.lean ====
section
/-! SUPPORT. What each shared operation can do, said once. -/

namespace Sys2Proof.Machine

theorem advance_of_ne (s t : State) (h : s.pc ≠ 15#4) : advance s t = .next (t.setPc (s.pc + 1#4)) := if_neg h

theorem advance_of_eq (s t : State) (h : s.pc = 15#4) : advance s t = raiseFault .pcOverrun s := if_pos h

/-- The end of an operation: PC_OVERRUN at PC = 15 with STATUS alone written, else the other writes and PC + 1. -/
theorem advance_cases {s t u : State} (h : advance s t = .next u) :
    (s.pc = 15#4 ∧ u = s.setStatus (s.status.faulted .pcOverrun)) ∨ (s.pc ≠ 15#4 ∧ u = t.setPc (s.pc + 1#4)) := by
  by_cases hpc : s.pc = 15#4
  · rw [advance_of_eq s t hpc] at h
    injection h with h
    exact .inl ⟨hpc, h.symm⟩
  · rw [advance_of_ne s t hpc] at h
    injection h with h
    exact .inr ⟨hpc, h.symm⟩

/-- The end of an operation always gives a next state. -/
theorem advance_next (s t : State) : ∃ u, advance s t = .next u := by
  by_cases hpc : s.pc = 15#4
  · exact ⟨_, advance_of_eq s t hpc⟩
  · exact ⟨_, advance_of_ne s t hpc⟩

theorem memRead_of_lt (a : Nat) (s : State) (h : a < 2 ^ s.aw) : memRead a s = .ok (s.mem.read a) := if_pos h

theorem memRead_of_le (a : Nat) (s : State) (h : 2 ^ s.aw ≤ a) : memRead a s = .error (.addressOutsideMemory a) :=
  if_neg (Nat.not_lt.2 h)

theorem setPtr_of_lt (s : State) (v : Nat) (h : v < 2 ^ s.aw) : s.setPtr v = { s with ptr := v } := by
  simp only [State.setPtr, Nat.mod_eq_of_lt h]

/-- The legal stages are 1 to 7. -/
theorem legalStage_iff (i : Nibble) : legalStage i = true ↔ 1 ≤ i.toNat ∧ i.toNat ≤ 7 := by
  simp [legalStage]

end Sys2Proof.Machine
end

