-- ==== Sys2Proof/Laws/Exec.lean ====
section
/-! SUPPORT. What each operation can do, said once: if it gives a next state, then which. -/

namespace Sys2Proof.Machine

/-- The two ends of an operation that finishes with `next` and whose other writes give `w`. -/
def EndsWith (s w t : State) : Prop :=
  (s.pc = 15#4 ∧ t = s.setStatus (s.status.faulted .pcOverrun)) ∨ (s.pc ≠ 15#4 ∧ t = w.setPc (s.pc + 1#4))

theorem execInit_cases {s t : State} (h : execInit s = .next t) : EndsWith s (s.setAcc seed) t := advance_cases h

theorem execLdb_cases {s t : State} (h : execLdb s = .next t) :
    s.ptr < 2 ^ s.aw ∧ EndsWith s (s.setC (s.mem.read s.ptr)) t := by
  unfold execLdb at h
  by_cases hp : s.ptr < 2 ^ s.aw
  · rw [memRead_of_lt s.ptr s hp] at h
    exact ⟨hp, advance_cases h⟩
  · rw [memRead_of_le s.ptr s (Nat.not_lt.1 hp)] at h
    exact nomatch h

theorem execMad_cases {s t : State} (h : execMad s = .next t) :
    (s.ptr = s.topAddress ∧ t = s.setStatus (s.status.faulted .inputOverrun)) ∨
      (s.ptr ≠ s.topAddress ∧ EndsWith s ((s.setAcc (multiplyAdd s.acc s.c)).setPtr (s.ptr + 1)) t) := by
  unfold execMad at h
  split at h
  next hp => injection h with h; exact .inl ⟨hp, h.symm⟩
  next hp => exact .inr ⟨hp, advance_cases h⟩

theorem execFold_cases {i : Nibble} {s t : State} (h : execFold i s = .next t) :
    (legalStage i = false ∧ t = s.setStatus (s.status.faulted .illegalOp)) ∨
      (legalStage i = true ∧ EndsWith s (s.setAcc (foldStage i s.acc)) t) := by
  unfold execFold at h
  split at h
  next hi => exact .inr ⟨hi, advance_cases h⟩
  next hi => injection h with h; exact .inl ⟨by simpa using hi, h.symm⟩

theorem execFin_cases {s t : State} (h : execFin s = .next t) : EndsWith s (s.setResult (finalMask s.acc)) t :=
  advance_cases h

theorem execBz_cases {a : Nibble} {s t : State} (h : execBz a s = .next t) :
    (s.c = 0#8 ∧ t = s.setPc a) ∨ (s.c ≠ 0#8 ∧ EndsWith s s t) := by
  unfold execBz isZeroByte at h
  split at h
  next hc => injection h with h; exact .inl ⟨by simpa using hc, h.symm⟩
  next hc => exact .inr ⟨by simpa using hc, advance_cases h⟩

theorem execBr_cases {a : Nibble} {s t : State} (h : execBr a s = .next t) : t = s.setPc a := by
  injection h with h; exact h.symm

theorem execHalt_cases {s t : State} (h : execHalt s = .next t) : t = s.setStatus s.status.halted := by
  injection h with h; exact h.symm

/-- An operation gives a next state, unless it is an LDB at an address that does not exist. -/
theorem exec_next_or_ldb (i : Instr) (s : State) : (∃ t, exec i s = .next t) ∨ (i = .ldb ∧ 2 ^ s.aw ≤ s.ptr) := by
  cases i with
  | init => exact .inl (advance_next s _)
  | ldb =>
    by_cases hp : s.ptr < 2 ^ s.aw
    · simp only [exec, execLdb, memRead_of_lt s.ptr s hp]
      exact .inl (advance_next s _)
    · exact .inr ⟨rfl, Nat.not_lt.1 hp⟩
  | bz a => simp only [exec, execBz]; split <;> simp [advance_next]
  | mad => simp only [exec, execMad]; split <;> simp [advance_next, raiseFault]
  | br a => exact .inl ⟨_, rfl⟩
  | fold k => simp only [exec, execFold]; split <;> simp [advance_next, raiseFault]
  | fin => exact .inl (advance_next s _)
  | halt => exact .inl ⟨_, rfl⟩

end Sys2Proof.Machine
end

