-- ==== Sys2Proof/Laws/Memory.lean ====
section
/-! SUPPORT. The laws of the input memory: a read after a write, and that a write keeps the canonical form. -/

namespace Sys2Proof.Machine

theorem Memory.read_of_all_above (m : Memory) (a : Nat) (h : m.all (fun cell => decide (a < cell.1)) = true) :
    m.read a = Config.unlistedByte := by
  induction m with
  | nil => rfl
  | cons cell rest ih =>
    obtain ⟨k, v⟩ := cell
    simp only [List.all_cons, Bool.and_eq_true, decide_eq_true_eq] at h
    rw [Memory.read, if_neg (by omega), ih h.2]

theorem Memory.wf_cons (k : Nat) (v : Byte) (rest : Memory) :
    Memory.wf ((k, v) :: rest) = true ↔
      v ≠ Config.unlistedByte ∧ rest.all (fun cell => decide (k < cell.1)) = true ∧ rest.wf = true := by
  simp [Memory.wf, and_assoc]

theorem Memory.read_place (a : Nat) (b : Byte) (rest : Memory) (x : Nat)
    (h : rest.all (fun cell => decide (a < cell.1)) = true) :
    (Memory.place a b rest).read x = if x = a then b else rest.read x := by
  unfold Memory.place
  split
  next hb =>
    split
    next hx => rw [hx, Memory.read_of_all_above rest a h, hb]
    next => rfl
  next => rfl

/-- A write leaves every other address alone. -/
theorem Memory.read_write_other (m : Memory) (a x : Nat) (b : Byte) (h : x ≠ a) : (m.write a b).read x = m.read x := by
  induction m with
  | nil => simp only [Memory.write, Memory.place]; split <;> simp [Memory.read, h]
  | cons cell rest ih =>
    obtain ⟨k, v⟩ := cell
    unfold Memory.write
    split
    next => simp only [Memory.place]; split <;> simp [Memory.read, h]
    next =>
      split
      next hak => subst hak; simp only [Memory.place]; split <;> simp [Memory.read, h]
      next => simp only [Memory.read, ih]

/-- A read after a write gives the byte written at its address, and the old byte at every other. -/
theorem Memory.read_write (m : Memory) (a : Nat) (b : Byte) (x : Nat) (h : m.wf = true) :
    (m.write a b).read x = if x = a then b else m.read x := by
  split
  next hx =>
    subst hx
    induction m with
    | nil => exact (Memory.read_place x b [] x rfl).trans (if_pos rfl)
    | cons cell rest ih =>
      obtain ⟨k, v⟩ := cell
      obtain ⟨hv, hall, hwf⟩ := (Memory.wf_cons k v rest).1 h
      unfold Memory.write
      split
      next hak =>
        refine (Memory.read_place x b _ x ?_).trans (if_pos rfl)
        simp only [List.all_cons, List.all_eq_true, Bool.and_eq_true, decide_eq_true_eq] at hall ⊢
        exact ⟨hak, fun y hy => hak.trans (hall y hy)⟩
      next =>
        split
        next hak => subst hak; exact (Memory.read_place x b rest x hall).trans (if_pos rfl)
        next hak => simp only [Memory.read, if_neg hak, ih hwf]
  next hx => exact Memory.read_write_other m a x b hx

theorem Memory.all_place (p : Host.Cell → Bool) (a : Nat) (b : Byte) (rest : Memory) (hp : p (a, b) = true)
    (h : rest.all p = true) : (Memory.place a b rest).all p = true := by
  unfold Memory.place
  split
  next => exact h
  next => simpa using ⟨hp, by simpa using h⟩

/-- A write keeps what holds of all listed cells and of the one written. -/
theorem Memory.all_write (p : Host.Cell → Bool) (m : Memory) (a : Nat) (b : Byte) (hp : p (a, b) = true)
    (h : m.all p = true) : (m.write a b).all p = true := by
  induction m with
  | nil => exact Memory.all_place p a b [] hp rfl
  | cons cell rest ih =>
    obtain ⟨k, v⟩ := cell
    have hc : p (k, v) = true ∧ rest.all p = true := by simpa using h
    unfold Memory.write
    split
    next => exact Memory.all_place p a b _ hp h
    next =>
      split
      next => exact Memory.all_place p a b _ hp hc.2
      next => simp only [List.all_cons, hc.1, ih hc.2, Bool.and_self]

theorem Memory.wf_place (a : Nat) (b : Byte) (rest : Memory) (h : rest.wf = true)
    (hall : rest.all (fun cell => decide (a < cell.1)) = true) : (Memory.place a b rest).wf = true := by
  unfold Memory.place
  split
  next => exact h
  next hb => exact (Memory.wf_cons a b rest).2 ⟨hb, hall, h⟩

/-- A write keeps the canonical form. -/
theorem Memory.wf_write (m : Memory) (a : Nat) (b : Byte) (h : m.wf = true) : (m.write a b).wf = true := by
  induction m with
  | nil => exact Memory.wf_place a b [] rfl rfl
  | cons cell rest ih =>
    obtain ⟨k, v⟩ := cell
    obtain ⟨hv, hall, hwf⟩ := (Memory.wf_cons k v rest).1 h
    unfold Memory.write
    split
    next hak =>
      refine Memory.wf_place a b _ h ?_
      simp only [List.all_cons, List.all_eq_true, Bool.and_eq_true, decide_eq_true_eq] at hall ⊢
      exact ⟨hak, fun y hy => hak.trans (hall y hy)⟩
    next =>
      split
      next hak => subst hak; exact Memory.wf_place a b rest hwf hall
      next => exact (Memory.wf_cons k v _).2 ⟨hv, Memory.all_write _ rest a b (by simp; omega) hall, ih hwf⟩

/-- A write at an address that exists keeps the listed addresses inside the address space. -/
theorem Memory.within_write (m : Memory) (aw a : Nat) (b : Byte) (ha : a < 2 ^ aw) (h : m.within aw = true) :
    (m.write a b).within aw = true :=
  Memory.all_write _ m a b (by simpa using ha) h

end Sys2Proof.Machine
end

