-- ==== Sys2Proof/Laws/PerInstr.lean ====
section
/-! SUPPORT. Laws stated per instruction, one lemma per constructor of `Instr`. -/

namespace Sys2Proof.Laws.ControlWordFields

/-- The control word of an instruction carries its opcode in bits 7:4 and its operand in bits 3:0 (30_encoding.md R56), and the
operation map's row of its opcode selects it when it is well formed (R58). -/
def Statement (i : Instr) : Prop :=
  opField (encode i) = i.opcode ∧ argField (encode i) = i.arg ∧
    (i.wellFormed = true → ∃ r ∈ opcodeTable, r.selects (encode i) = true)

theorem init : Statement .init := ⟨rfl, rfl, fun _ => ⟨⟨0x10#8, 0xFF#8, false⟩, by decide, by decide⟩⟩

theorem ldb : Statement .ldb := ⟨rfl, rfl, fun _ => ⟨⟨0x20#8, 0xFF#8, false⟩, by decide, by decide⟩⟩

theorem bz (t : Nibble) : Statement (.bz t) :=
  ⟨by revert t; decide, by revert t; decide, fun _ => ⟨⟨0x30#8, 0xF0#8, false⟩, by decide, by revert t; decide⟩⟩

theorem mad : Statement .mad := ⟨rfl, rfl, fun _ => ⟨⟨0x40#8, 0xFF#8, false⟩, by decide, by decide⟩⟩

theorem br (t : Nibble) : Statement (.br t) :=
  ⟨by revert t; decide, by revert t; decide, fun _ => ⟨⟨0x50#8, 0xF0#8, false⟩, by decide, by revert t; decide⟩⟩

theorem fold (i : Nibble) : Statement (.fold i) :=
  ⟨by revert i; decide, by revert i; decide, fun h => ⟨⟨0x60#8, 0xF8#8, true⟩, by decide, by revert i; decide⟩⟩

theorem fin : Statement .fin := ⟨rfl, rfl, fun _ => ⟨⟨0x70#8, 0xFF#8, false⟩, by decide, by decide⟩⟩

theorem halt : Statement .halt := ⟨rfl, rfl, fun _ => ⟨⟨0x80#8, 0xFF#8, false⟩, by decide, by decide⟩⟩

end Sys2Proof.Laws.ControlWordFields
end

