-- ==== Sys2Proof/Laws/Step.lean ====
section
/-! SUPPORT. What the host's writes, a boundary and a step can do, said once. -/

namespace Sys2Proof.Machine

/-- A host write lands only while no run is in progress and at an address that exists. -/
theorem hostWrite_cases {a : Nat} {b : Byte} {s t : State} (h : hostWrite a b s = .next t) :
    s.status.busy = false ∧ a < 2 ^ s.aw ∧ t = s.setMem (s.mem.write a b) := by
  unfold hostWrite at h
  split at h
  next => exact nomatch h
  next hb =>
    split at h
    next ha => injection h with h; exact ⟨by simpa using hb, ha, h.symm⟩
    next => exact nomatch h

theorem hostFill_nil (s : State) : hostFill [] s = .next s := rfl

theorem hostFill_cons {a : Nat} {b : Byte} {rest : List Host.Cell} {s t : State}
    (h : hostFill ((a, b) :: rest) s = .next t) :
    s.status.busy = false ∧ a < 2 ^ s.aw ∧ hostFill rest (s.setMem (s.mem.write a b)) = .next t := by
  unfold hostFill at h
  split at h
  next u hu =>
    obtain ⟨hb, ha, rfl⟩ := hostWrite_cases hu
    exact ⟨hb, ha, h⟩
  next => exact nomatch h
  next => exact nomatch h

/-- The host's writes change the input memory and nothing else. -/
theorem hostFill_frame {fill : List Host.Cell} {s t : State} (h : hostFill fill s = .next t) : t = s.setMem t.mem := by
  induction fill generalizing s with
  | nil => injection h with h; subst h; rfl
  | cons cell rest ih =>
    obtain ⟨a, b⟩ := cell
    obtain ⟨-, -, h⟩ := hostFill_cons h
    have hrest := ih h
    exact hrest

/-- While no run is in progress, writes at addresses that exist all land. -/
theorem hostFill_of_idle {fill : List Host.Cell} {s : State} (hb : s.status.busy = false)
    (h : fill.all (fun cell => decide (cell.1 < 2 ^ s.aw)) = true) : ∃ t, hostFill fill s = .next t := by
  induction fill generalizing s with
  | nil => exact ⟨s, rfl⟩
  | cons cell rest ih =>
    obtain ⟨a, b⟩ := cell
    simp only [List.all_cons, Bool.and_eq_true, decide_eq_true_eq] at h
    obtain ⟨t, ht⟩ := ih (s := s.setMem (s.mem.write a b)) hb h.2
    exact ⟨t, by simpa [hostFill, hostWrite, hb, h.1] using ht⟩

/-- While a run is in progress the host has written nothing, if the step goes on. -/
theorem hostFill_of_busy {fill : List Host.Cell} {s t : State} (hb : s.status.busy = true)
    (h : hostFill fill s = .next t) : fill = [] ∧ t = s := by
  cases fill with
  | nil => injection h with h; exact ⟨rfl, h.symm⟩
  | cons cell rest =>
    obtain ⟨a, b⟩ := cell
    exact absurd (hostFill_cons h).1 (by simp [hb])

theorem hostThenBoundary_cases {inp : HostInput} {s t : State} (h : hostThenBoundary inp s = .next t) :
    ∃ u, hostFill inp.fill s = .next u ∧ boundary inp u = .next t := by
  unfold hostThenBoundary at h
  split at h
  next u hu => exact ⟨u, hu, h⟩
  next => exact nomatch h
  next => exact nomatch h

/-- What a boundary can be: reset, a sequencer step, the START event, or nothing. -/
theorem boundary_cases {inp : HostInput} {s t : State} (h : boundary inp s = .next t) :
    (inp.rst = true ∧ t = resetEvent s) ∨
    (inp.rst = false ∧ s.status.busy = true ∧ sequencerStep s = .next t) ∨
    (inp.rst = false ∧ s.status.busy = false ∧ s.status.fault = false ∧ inp.start = true ∧ t = startEvent inp.base s) ∨
    (inp.rst = false ∧ s.status.busy = false ∧ (s.status.fault = true ∨ inp.start = false) ∧ t = s) := by
  unfold boundary at h
  split at h
  next hr => injection h with h; exact .inl ⟨hr, h.symm⟩
  next hr =>
    have hr : inp.rst = false := by simpa using hr
    split at h
    next hb => exact .inr (.inl ⟨hr, hb, h⟩)
    next hb =>
      have hb : s.status.busy = false := by simpa using hb
      split at h
      next hs =>
        injection h with h
        simp only [Bool.and_eq_true, Bool.not_eq_true'] at hs
        exact .inr (.inr (.inl ⟨hr, hb, hs.1, hs.2, h.symm⟩))
      next hs =>
        injection h with h
        refine .inr (.inr (.inr ⟨hr, hb, ?_, h.symm⟩))
        cases hf : s.status.fault <;> cases hst : inp.start <;> simp_all

/-- What a step can be. `u` is the state after the host's writes. -/
theorem step_cases {s t : State} (h : step s = .next t) :
    ∃ u, hostFill s.hostInput.fill s.dropInput = .next u ∧ u = s.dropInput.setMem u.mem ∧
      boundary s.hostInput u = .next t := by
  obtain ⟨u, hu, hb⟩ := hostThenBoundary_cases h
  exact ⟨u, hu, hostFill_frame hu, hb⟩

/-- A step is its boundary, taken in the state that the host's writes leave. -/
theorem step_of_hostFill {s u : State} (h : hostFill s.hostInput.fill s.dropInput = .next u) :
    step s = boundary s.hostInput u := by
  unfold step hostThenBoundary
  rw [h]

/-- What a sequencer step can be. -/
theorem sequencerStep_cases {s t : State} (h : sequencerStep s = .next t) :
    (∃ i, decode s.fetch = .ok i ∧ exec i s = .next t) ∨
      (∃ e, decode s.fetch = .error e ∧ t = s.setStatus (s.status.faulted .illegalOp)) := by
  unfold sequencerStep at h
  split at h
  next i hi => exact .inl ⟨i, hi, h⟩
  next e he => injection h with h; exact .inr ⟨e, he, h.symm⟩

theorem quiet_iff (inp : HostInput) : inp.quiet = true ↔ inp.rst = false ∧ inp.fill = [] := by
  simp [HostInput.quiet]

/-- A step with a quiet host input is its boundary alone. -/
theorem step_of_quiet {s : State} (h : s.hostInput.quiet = true) : step s = boundary s.hostInput s.dropInput :=
  step_of_hostFill (by rw [((quiet_iff _).1 h).2, hostFill_nil])

/-- Steps compose. -/
theorem runSteps_add (j k : Nat) {s t : State} (h : runSteps j s = .next t) : runSteps (j + k) s = runSteps k t := by
  induction j generalizing s with
  | zero =>
    injection h with h
    subst h
    rw [Nat.zero_add]
  | succ j ih =>
    rw [Nat.succ_add]
    simp only [runSteps, Host.Core.run] at h ih ⊢
    split at h
    next u hu => exact ih h
    next => exact nomatch h
    next => exact nomatch h

/-- A host that is quiet for one step more is quiet at the coming boundary and for the rest after it. -/
theorem quietFor_succ (s : State) (k : Nat) (h : s.quietFor (k + 1) = true) :
    s.hostInput.quiet = true ∧ s.dropInput.quietFor k = true := by
  cases hin : s.inputs with
  | nil => simp [State.hostInput, State.quietFor, hin, HostInput.idle, HostInput.quiet]
  | cons p rest => simpa [State.hostInput, State.quietFor, hin] using h

end Sys2Proof.Machine
end

