-- ==== Sys2Proof/Tests/Slice0.lean ====
section
/-! SUPPORT. The model's own tests. Expected values are the spec's (95_test_vectors.md, named V-…, and the examples of the
operation rules); each is one step or one decoding. Then the witnesses that the statements' hypotheses can be met. -/

namespace Sys2Proof.Tests

open Sys2Proof.Machine

/-- The state an outcome goes on with. -/
def nextOf : Host.Outcome State Fault Refusal → Option State
  | .next s => some s
  | .fault _ => none
  | .refused _ => none

/-- A running core at a PC with a register file of small values. -/
def running (pc : Nibble) (acc : Word) (c : Byte) (ptr : Nat) : State :=
  { State.reset with pc := pc, acc := acc, c := c, ptr := ptr, status := Status.run }

/-- The registers of the next state: ACC, C, PTR, PC, RESULT and STATUS as a word. -/
def regsAfter (o : Host.Outcome State Fault Refusal) : Option (Word × Byte × Nat × Nibble × Byte × BitVec 5) :=
  (nextOf o).map (fun s => (s.acc, s.c, s.ptr, s.pc, s.result, s.status.word))

/-! ### WellFormed: the one check, and ill-formed terms it refuses -/

theorem test_fold_stage_0_is_ill_formed : (Instr.fold 0#4).wellFormed = false := by decide
theorem test_fold_stage_8_is_ill_formed : (Instr.fold 8#4).wellFormed = false := by decide
theorem test_fold_stage_15_is_ill_formed : (Instr.fold 15#4).wellFormed = false := by decide
theorem test_fold_stages_1_and_7_are_well_formed : (Instr.fold 1#4).wellFormed = true ∧ (Instr.fold 7#4).wellFormed = true := by decide

/-! ### Decode: words written bit by bit from the format `oooo aaaa` (30_encoding.md R56) -/

theorem test_decode_init : decode 0b00010000#8 = .ok .init := by decide
theorem test_decode_ldb : decode 0b00100000#8 = .ok .ldb := by decide
theorem test_decode_bz : decode 0b00110101#8 = .ok (.bz 5#4) := by decide
theorem test_decode_mad : decode 0b01000000#8 = .ok .mad := by decide
theorem test_decode_br : decode 0b01010001#8 = .ok (.br 1#4) := by decide
theorem test_decode_fold : decode 0b01100111#8 = .ok (.fold 7#4) := by decide
theorem test_decode_fin : decode 0b01110000#8 = .ok .fin := by decide
theorem test_decode_halt : decode 0b10000000#8 = .ok .halt := by decide
/-- V-E5, V-E23: the highest targets. -/
theorem test_decode_targets_15 : decode 0x3F#8 = .ok (.bz 15#4) ∧ decode 0x5F#8 = .ok (.br 15#4) := by decide
/-- V-E11, V-E12, V-E22, V-E24. -/
theorem test_decode_reserved_opcodes :
    decode 0x00#8 = .error (.reservedOpcode 0#4) ∧ decode 0x0F#8 = .error (.reservedOpcode 0#4) ∧
      decode 0x90#8 = .error (.reservedOpcode 9#4) ∧ decode 0xFF#8 = .error (.reservedOpcode 15#4) := by decide
/-- V-E13, V-E14, V-E15, V-E19, V-E20. -/
theorem test_decode_operand_not_zero :
    decode 0x11#8 = .error (.operandNotZero 1#4 1#4) ∧ decode 0x2F#8 = .error (.operandNotZero 2#4 15#4) ∧
      decode 0x48#8 = .error (.operandNotZero 4#4 8#4) ∧ decode 0x71#8 = .error (.operandNotZero 7#4 1#4) ∧
      decode 0x81#8 = .error (.operandNotZero 8#4 1#4) := by decide
/-- V-E16, V-E17, V-E18. -/
theorem test_decode_stage_out_of_range :
    decode 0x60#8 = .error (.stageOutOfRange 0#4) ∧ decode 0x68#8 = .error (.stageOutOfRange 8#4) ∧
      decode 0x6F#8 = .error (.stageOutOfRange 15#4) := by decide
theorem test_table_words : decodeTableWord 8 0x35 = some (.bz 5#4) ∧ decodeTableWord 8 0x60 = none := by decide

/-! ### One step of each operation -/

/-- V-A1. -/
theorem test_init_old_value_lost :
    regsAfter (exec .init (running 0#4 0xFFFFFFFFFFFFFFFF#64 0#8 0)) = some (0x1505#64, 0#8, 0, 1#4, 0#8, 0b00001#5) := by decide
/-- V-T12. -/
theorem test_init_at_15_faults :
    regsAfter (exec .init (running 15#4 0#64 0#8 0)) = some (0#64, 0#8, 0, 15#4, 0#8, 0b11100#5) := by decide
/-- V-A3. -/
theorem test_ldb_loads :
    regsAfter (exec .ldb { running 1#4 0#64 0#8 0x100 with mem := [(0x100, 0x66#8)] }) =
      some (0#64, 0x66#8, 0x100, 2#4, 0#8, 0b00001#5) := by decide
/-- V-A4. -/
theorem test_ldb_top_address :
    regsAfter (exec .ldb { running 1#4 0#64 0#8 0xFFFF with mem := [(0xFFFF, 0xAB#8)] }) =
      some (0#64, 0xAB#8, 0xFFFF, 2#4, 0#8, 0b00001#5) := by decide
/-- V-A9. -/
theorem test_mad_wraps :
    regsAfter (exec .mad (running 3#4 0xFFFFFFFFFFFFFFFF#64 0xFF#8 0x100)) =
      some (0xDE#64, 0xFF#8, 0x101, 4#4, 0#8, 0b00001#5) := by decide
/-- V-A15, and V-X6 for the priority at PC = 15. -/
theorem test_mad_at_top_address :
    regsAfter (exec .mad (running 15#4 7#64 1#8 0xFFFF)) = some (7#64, 1#8, 0xFFFF, 15#4, 0#8, 0b10100#5) := by decide
/-- V-F9. -/
theorem test_fold_4 :
    regsAfter (exec (.fold 4#4) (running 8#4 0x0123456789ABCDEF#64 0#8 0)) =
      some (0x0123450089ABCDEF#64, 0#8, 0, 9#4, 0#8, 0b00001#5) := by decide
/-- V-F3: bit 31 of the mask is not sign-extended. -/
theorem test_fold_3 :
    regsAfter (exec (.fold 3#4) (running 7#4 0xFFFFFFFFFF0000FF#64 0#8 0)) =
      some (0xFFFFFFFF000000FF#64, 0#8, 0, 8#4, 0#8, 0b00001#5) := by decide
/-- V-F15. -/
theorem test_fin :
    regsAfter (exec .fin (running 12#4 0x0000D0B2B370BB20#64 0#8 0)) =
      some (0x0000D0B2B370BB20#64, 0#8, 0, 13#4, 0x20#8, 0b00001#5) := by decide
/-- V-T1, V-T5. -/
theorem test_bz_taken :
    regsAfter (exec (.bz 5#4) (running 2#4 0#64 0#8 0)) = some (0#64, 0#8, 0, 5#4, 0#8, 0b00001#5) ∧
      regsAfter (exec (.bz 0#4) (running 15#4 0#64 0#8 0)) = some (0#64, 0#8, 0, 0#4, 0#8, 0b00001#5) :=
  ⟨by decide, by decide⟩
/-- V-T3, V-T6. -/
theorem test_bz_not_taken :
    regsAfter (exec (.bz 5#4) (running 2#4 0#64 0x80#8 0)) = some (0#64, 0x80#8, 0, 3#4, 0#8, 0b00001#5) ∧
      regsAfter (exec (.bz 0#4) (running 15#4 0#64 7#8 0)) = some (0#64, 7#8, 0, 15#4, 0#8, 0b11100#5) :=
  ⟨by decide, by decide⟩
/-- V-T8. -/
theorem test_br :
    regsAfter (exec (.br 15#4) (running 0#4 0#64 0#8 0)) = some (0#64, 0#8, 0, 15#4, 0#8, 0b00001#5) := by decide
/-- V-T11. -/
theorem test_halt_at_15 :
    regsAfter (exec .halt (running 15#4 0#64 0#8 0)) = some (0#64, 0#8, 0, 15#4, 0#8, 0b00010#5) := by decide

/-! ### The step of the machine -/

/-- V-X9 in one step: an all-zero word faults. -/
theorem test_step_illegal_word :
    regsAfter (step (State.reset.withFetchWord 8 0x00)) = some (0#64, 0#8, 0, 0#4, 0#8, 0b01100#5) := by decide
theorem test_step_runs_placed_word :
    regsAfter (step (State.reset.withFetchWord 8 0x5F)) = some (0#64, 0#8, 0, 15#4, 0#8, 0b00001#5) := by decide
/-- V-S2. -/
theorem test_step_start :
    regsAfter (step { State.reset with inputs := [⟨false, true, 0x100, []⟩] }) =
      some (0#64, 0#8, 0x100, 0#4, 0#8, 0b00001#5) := by decide
/-- V-S3. -/
theorem test_step_start_from_done :
    regsAfter (step { running 13#4 0x20#64 0#8 0x107 with
      status := Status.ended, result := 0x20#8, inputs := [⟨false, true, 0x200, []⟩] }) =
      some (0x20#64, 0#8, 0x200, 0#4, 0x20#8, 0b00001#5) := by decide
/-- V-S5. -/
theorem test_step_reset_and_start :
    regsAfter (step { running 3#4 7#64 1#8 5 with inputs := [⟨true, true, 0x300, []⟩] }) =
      some (0#64, 0#8, 0, 0#4, 0#8, 0b00000#5) := by decide
/-- V-S6. -/
theorem test_step_idle : nextOf (step State.reset) = some State.reset := by decide
/-- R144: bytes written at two addresses out of order, one of them back to what an unlisted address reads as. -/
theorem test_step_fill :
    (nextOf (step { State.reset with
      inputs := [⟨false, false, 0, [(9, 1#8), (3, 2#8), (9, 0#8)]⟩] })).map (fun s => s.mem) = some [(3, 2#8)] := by decide
/-- R29: `mem_re` is 1 in an LDB step, with PTR on `mem_addr`. -/
theorem test_ports_of_an_ldb_step :
    (running 1#4 0#64 0#8 0x100).ports = ⟨0x100, true, 0#8, true, false, false, 0#2⟩ := by decide

/-! ### The assembler: the text of 43_hash_run.md R101 gives the image of R100 -/

def canonicalLines : List (List Char) :=
  [['I', 'N', 'I', 'T', ' ', ';', '0'],
   ['l', 'o', 'o', 'p', ':', ' ', 'L', 'D', 'B'],
   [' ', 'B', 'Z', ' ', 'p', 'o', 's', 't'],
   ['M', 'A', 'D'],
   ['B', 'R', ' ', 'l', 'o', 'o', 'p'],
   ['p', 'o', 's', 't', ':', 'F', 'O', 'L', 'D', ' ', '1']] ++
  [['F', 'O', 'L', 'D', ' ', '2'], ['F', 'O', 'L', 'D', ' ', '3'], ['F', 'O', 'L', 'D', ' ', '4'], ['F', 'O', 'L', 'D', ' ', '5'],
   ['F', 'O', 'L', 'D', ' ', '6'], ['F', 'O', 'L', 'D', ' ', '0', 'x', '7'], ['F', 'I', 'N'], ['H', 'A', 'L', 'T'], []]

theorem test_assemble_canonical_program :
    (assemble (canonicalLines.intersperse ['\n']).flatten).toOption = some Config.canonicalImage := by decide
/-- R62: `.word` places an illegal word, FOLD 8 is rejected. -/
theorem test_assemble_word_and_range :
    (assemble ['.', 'w', 'o', 'r', 'd', ' ', '0', 'x', '6', '8']).toOption.map (fun p => p.toList.take 2) = some [0x68#8, 0#8] ∧
      assemble ['F', 'O', 'L', 'D', ' ', '8'] = .error (.outOfRange 8) := by decide
/-- R63. -/
theorem test_disassemble :
    disassemble 0x35#8 = ['B', 'Z', ' ', '5'] ∧ disassemble 0x5F#8 = ['B', 'R', ' ', '1', '5'] ∧
      disassemble 0x6F#8 = ['.', 'w', 'o', 'r', 'd', ' ', '0', 'x', '6', 'F'] := by decide

/-! ### Witnesses: concrete states and operands that meet the hypotheses of each statement, clause by clause -/

/-- An idle core with "ab" and a terminator at 0x10, a START event at the coming boundary, AW = 8. -/
def startState : State :=
  { State.reset with aw := 8, mem := [(0x10, 0x61#8), (0x11, 0x62#8)], inputs := [⟨false, true, 0x10, []⟩] }

/-- An idle core with AW = 1 whose two bytes are 1, a START event at base 0 at the coming boundary (an unterminated input). -/
def unterminatedState : State :=
  { State.reset with aw := 1, mem := [(0, 1#8), (1, 1#8)], inputs := [⟨false, true, 0, []⟩] }

theorem witness_DecodingAnEncodingGivesTheOperation : (Instr.fold 7#4).wellFormed = true := by decide
theorem witness_DecodedWordIsItsOperationsOnlyWord : decode 0x67#8 = .ok (.fold 7#4) := by decide
theorem witness_IllegalWordsRaiseIllegalOp :
    (running 14#4 0#64 0#8 0).Running ∧
      decode ((running 14#4 0#64 0#8 0).prog[(14#4).toNat]'(14#4).isLt) = .error (.reservedOpcode 0#4) := by decide
theorem witness_OperationMapIsDecoded :
    (1 ≤ (1#4).toNat ∧ (1#4).toNat ≤ 7) ∧ (1 ≤ (7#4).toNat ∧ (7#4).toNat ≤ 7) ∧
      (⟨0x60#8, 0xF8#8, true⟩ : OpcodeRow) ∈ opcodeTable ∧ OpcodeRow.selects ⟨0x60#8, 0xF8#8, true⟩ 0x61#8 = true := by decide
theorem witness_StepPerformsTheDecodedOperation :
    (running 2#4 0#64 0#8 0).Running ∧
      decode ((running 2#4 0#64 0#8 0).prog[(2#4).toNat]'(2#4).isLt) = .ok (.bz 5#4) ∧
      decode ((running 15#4 0#64 0#8 0).prog[(15#4).toNat]'(15#4).isLt) = .error (.reservedOpcode 0#4) ∧
      (startState.status.busy = false ∧ startState.hostInput.quiet = true) := by decide

def resetInput : State := { running 3#4 7#64 1#8 5 with inputs := [⟨true, true, 9, []⟩] }
def faultedState : State := { running 3#4 7#64 1#8 5 with status := ⟨false, false, true, 2#2⟩, inputs := [⟨false, true, 9, []⟩] }

theorem witness_ResetZeroesEveryRegister :
    (resetInput.hostInput.rst = true ∧ resetInput.hostInput.fill = []) ∧
      faultedState.hostInput.rst = false ∧ faultedState.status.legal = true ∧ faultedState.status.fault = true ∧
      ∃ t, step faultedState = .next t := ⟨by decide, by decide, by decide, by decide, _, rfl⟩
theorem witness_ControlStoreHoldsTheCanonicalImage : ∃ t, step State.reset = .next t := ⟨_, rfl⟩
theorem witness_StartEventIsTakenOnlyWhenIdleOrEnded :
    (startState.hostInput.quiet = true ∧ startState.status.busy = false ∧ startState.status.fault = false ∧
      startState.hostInput.start = true ∧ startState.hostInput.base < 2 ^ startState.aw) ∧
    (faultedState.hostInput.quiet = true ∧ faultedState.status.busy = false ∧ faultedState.status.fault = true) ∧
    ((running 3#4 0#64 0#8 0).status.busy = true ∧ HostInput.quiet ⟨false, true, 7, []⟩ = true ∧
      HostInput.quiet ⟨false, false, 0, []⟩ = true) := by decide
theorem witness_BoundaryEventsComeInTheirOrder :
    (resetInput.hostInput.fill = [] ∧ resetInput.hostInput.rst = true) ∧
    ((running 3#4 0#64 0#8 0).hostInput.fill = [] ∧ (running 3#4 0#64 0#8 0).hostInput.rst = false ∧
      (running 3#4 0#64 0#8 0).status.busy = true) ∧
    (startState.hostInput.fill = [] ∧ startState.hostInput.rst = false ∧ startState.status.busy = false ∧
      startState.status.fault = false ∧ startState.hostInput.start = true) ∧
    (State.reset.hostInput.fill = [] ∧ State.reset.hostInput.rst = false ∧ State.reset.status.busy = false ∧
      State.reset.hostInput.start = false) ∧
    State.reset.Inv := by decide

def fillState : State := { State.reset with inputs := [⟨false, false, 0, [(9, 1#8), (3, 2#8), (65535, 4#8)]⟩] }

theorem witness_StepIsTotalOnStatesOfTheHardware : fillState.Inv ∧ fillState.hostLawful = true := by decide
theorem witness_HostWriteDuringARunIsRefused :
    ({ fillState with status := Status.run } : State).status.busy = true ∧
      fillState.hostInput.fill = (9, 1#8) :: [(3, 2#8), (65535, 4#8)] := by decide
theorem witness_InitSeedsTheAccumulator : (running 14#4 0#64 0#8 0).pc ≠ 15#4 ∧ (running 15#4 0#64 0#8 0).pc = 15#4 := by decide
theorem witness_LdbLoadsTheByteAtThePointer :
    (running 14#4 0#64 0#8 65535).ptr < 2 ^ 16 ∧ (running 14#4 0#64 0#8 65535).aw = 16 ∧
      (running 14#4 0#64 0#8 65535).pc ≠ 15#4 ∧ (running 15#4 0#64 0#8 65535).pc = 15#4 := by decide
theorem witness_LdbStopsAtAnAddressThatDoesNotExist :
    2 ^ (running 1#4 0#64 0#8 65536).aw ≤ (running 1#4 0#64 0#8 65536).ptr := by decide
theorem witness_MadAbsorbsTheByte :
    ((running 14#4 0#64 0#8 65534).ptr < 2 ^ (running 14#4 0#64 0#8 65534).aw ∧
      (running 14#4 0#64 0#8 65534).ptr ≠ 2 ^ (running 14#4 0#64 0#8 65534).aw - 1 ∧ (running 14#4 0#64 0#8 65534).pc ≠ 15#4) ∧
    ((running 15#4 0#64 0#8 65535).ptr < 2 ^ (running 15#4 0#64 0#8 65535).aw ∧
      (running 15#4 0#64 0#8 65535).ptr = 2 ^ (running 15#4 0#64 0#8 65535).aw - 1) ∧
    ((running 15#4 0#64 0#8 65534).ptr ≠ 2 ^ (running 15#4 0#64 0#8 65534).aw - 1 ∧ (running 15#4 0#64 0#8 65534).pc = 15#4) := by
  decide
theorem witness_LowByteOfMultiplyAddNeedsOnlyTheLowByte : lane 0 0x1505#64 = lane 0 0xFF05#64 := by decide
theorem witness_AccumulatorWrapsFromTheEleventhByte :
    (∀ ch ∈ List.replicate 11 255#8, ch ≠ 0#8) ∧ (List.replicate 10 255#8).length ≤ 10 ∧
      11 ≤ (List.replicate 11 255#8).length := by decide

/-- A running core whose word at address 4 is 0x68, that is FOLD 8. -/
def fold8State : State := { running 4#4 1#64 0#8 0 with prog := Config.canonicalImage.set 4 0x68#8 }

theorem witness_FoldAppliesTheStageFormula :
    ((0#4).toNat = 0 ∧ 8 ≤ (8#4).toNat) ∧ (1 ≤ (1#4).toNat ∧ (1#4).toNat ≤ 7) ∧ (1 ≤ (7#4).toNat ∧ (7#4).toNat ≤ 7) ∧
      ((running 14#4 0#64 0#8 0).pc ≠ 15#4 ∧ (running 15#4 0#64 0#8 0).pc = 15#4) ∧
      (fold8State.Running ∧ fold8State.prog[fold8State.pc.toNat]'fold8State.pc.isLt = 0x60#8 + (8#4).setWidth 8) := by decide
theorem witness_FoldOutsideTheStagesRaisesIllegalOp : (0#4).toNat = 0 ∧ 8 ≤ (8#4).toNat ∧ 8 ≤ (15#4).toNat := by decide
theorem witness_StageConstantsAreThoseOfTheTable : 1 ≤ (7#4).toNat ∧ (7#4).toNat ≤ 7 := by decide
theorem witness_FoldClearsItsLaneAndNoOther :
    1 ≤ (7#4).toNat ∧ (7#4).toNat ≤ 7 ∧ (running 11#4 0#64 0#8 0).pc ≠ 15#4 ∧ 0 < 8 ∧ 0 ≠ (7#4).toNat := by decide
theorem witness_SevenStagesLeaveTheLowByte : 7 ≤ 7 ∧ 0 ≤ 7 := by decide
theorem witness_StagesCommuteAndAreIdempotent :
    (1 ≤ (1#4).toNat ∧ (1#4).toNat ≤ 7 ∧ 1 ≤ (7#4).toNat ∧ (7#4).toNat ≤ 7) ∧
      [7#4, 1#4, 2#4, 3#4, 4#4, 5#4, 6#4].Perm [1#4, 2#4, 3#4, 4#4, 5#4, 6#4, 7#4] := by decide
theorem witness_HaltEndsTheRun :
    (∃ t, exec .halt (running 13#4 0#64 0#8 0) = .next t ∧ t.hostInput.quiet = true ∧ t.hostInput.start = false) ∧
      ∃ t, exec .halt { startState with status := Status.run } = .next t ∧ t.hostInput.quiet = true ∧ t.hostInput.start = true :=
  ⟨⟨_, rfl, rfl, rfl⟩, ⟨_, rfl, rfl, rfl⟩⟩
theorem witness_FinDeliversTheLowByte : (running 14#4 0#64 0#8 0).pc ≠ 15#4 ∧ (running 15#4 0#64 0#8 0).pc = 15#4 := by decide
theorem witness_BzBranchesOnAZeroByte :
    (running 15#4 0#64 0#8 0).c = 0#8 ∧ ((running 14#4 0#64 1#8 0).c ≠ 0#8 ∧ (running 14#4 0#64 1#8 0).pc ≠ 15#4) ∧
      ((running 15#4 0#64 255#8 0).c ≠ 0#8 ∧ (running 15#4 0#64 255#8 0).pc = 15#4) := by decide

/-- A running core whose word at address 4 is BR 4. -/
def hangState : State := { running 4#4 0#64 0#8 0 with prog := Config.canonicalImage.set 4 0x54#8 }

theorem witness_BranchToItselfHangs :
    hangState.status.busy = true ∧ decode (hangState.prog[hangState.pc.toNat]'hangState.pc.isLt) = .ok (.br hangState.pc) ∧
      hangState.quietFor 3 = true := by decide
theorem witness_OperationsWriteOnlyTheirRow :
    (∃ t, exec .halt (running 13#4 0#64 0#8 0) = .next t) ∧ ∃ t, exec .mad (running 3#4 0#64 0#8 0) = .next t :=
  ⟨⟨_, rfl⟩, ⟨_, rfl⟩⟩
theorem witness_OnlyLdbReadsMemoryAndOnlyAtThePointer :
    Memory.read [(9, 1#8)] (running 1#4 0#64 0#8 5).ptr = (running 1#4 0#64 0#8 5).mem.read (running 1#4 0#64 0#8 5).ptr ∧
      ∃ t, exec .ldb (running 1#4 0#64 0#8 5) = .next t := ⟨by decide, _, rfl⟩
theorem witness_TheCoreNeverWritesMemory :
    (∃ t, step fillState = .next t) ∧ (∃ t, step (running 3#4 0#64 0#8 0) = .next t) ∧
      (running 3#4 0#64 0#8 0).status.busy = true ∧ ∀ b, (4, b) ∉ fillState.hostInput.fill :=
  ⟨⟨_, rfl⟩, ⟨_, rfl⟩, rfl, by decide⟩
theorem witness_HostWritesLandInTheInputMemory :
    fillState.Inv ∧ fillState.status.busy = false ∧ fillState.hostLawful = true := by decide
theorem witness_RegistersChangeOnlyByTheirWriters :
    (∃ t, step (running 0#4 0#64 0#8 0) = .next t ∧ t.acc ≠ (running 0#4 0#64 0#8 0).acc) ∧
    (∃ t, step { running 1#4 0#64 1#8 5 with inputs := [⟨false, false, 0, []⟩] } = .next t ∧ t.c ≠ 1#8) ∧
    (∃ t, step (running 3#4 0#64 1#8 5) = .next t ∧ t.ptr ≠ 5) ∧
    (∃ t, step (running 12#4 1#64 1#8 5) = .next t ∧ t.result ≠ 0#8) ∧
    (∃ t, step startState = .next t ∧ t.ptr ≠ startState.ptr) ∧ startState.hostInput.rst = false :=
  ⟨⟨_, rfl, by decide⟩, ⟨_, rfl, by decide⟩, ⟨_, rfl, by decide⟩, ⟨_, rfl, by decide⟩, ⟨_, rfl, by decide⟩, rfl⟩
theorem witness_CausesAreRaisedExactlyAsTheTableSays :
    (running 3#4 0#64 1#8 65535).Inv ∧ (running 3#4 0#64 1#8 65535).Running ∧
      ∃ t, step (running 3#4 0#64 1#8 65535) = .next t ∧ t.status.cause = 2#2 := ⟨by decide, by decide, _, rfl, by decide⟩
theorem witness_FaultEntryIsPrecise :
    (running 14#4 0#64 0#8 0).status.fault = false ∧ ∃ t, step (running 14#4 0#64 0#8 0) = .next t ∧ t.status.fault = true :=
  ⟨rfl, _, rfl, rfl⟩
theorem witness_FaultIsStickyUntilReset :
    faultedState.status.busy = false ∧ faultedState.status.fault = true ∧ (∀ inp ∈ faultedState.inputs.take 2, inp.rst = false) ∧
      faultedState.status.legal = true ∧ ∃ t, runSteps 2 faultedState = .next t := ⟨rfl, rfl, by decide, by decide, _, rfl⟩
theorem witness_StatusMovesOnlyAlongTheFourStates :
    (State.reset.status.word = 0b00000#5 ∧ ∃ t, step State.reset = .next t) ∧
    ((running 13#4 0#64 0#8 0).status.word = 0b00001#5 ∧ ∃ t, step (running 13#4 0#64 0#8 0) = .next t) ∧
    (faultedState.status.word = 0b10100#5 ∧ faultedState.hostInput.rst = false ∧ ∃ t, step faultedState = .next t) ∧
    (({ startState with status := Status.ended } : State).status.word = 0b00010#5 ∧
      ∃ t, step { startState with status := Status.ended } = .next t) ∧
    (resetInput.hostInput.rst = true ∧ resetInput.status.word = 0b00001#5 ∧ ∃ t, step resetInput = .next t) :=
  ⟨⟨by decide, _, rfl⟩, ⟨by decide, _, rfl⟩, ⟨by decide, rfl, _, rfl⟩, ⟨by decide, _, rfl⟩, ⟨rfl, by decide, _, rfl⟩⟩
theorem witness_EveryStepKeepsTheInvariant : fillState.Inv ∧ ∃ t, step fillState = .next t := ⟨by decide, _, rfl⟩
theorem witness_InputStringEndsBeforeTheFirstZero : startState.cstr 0x10 = some [0x61#8, 0x62#8] := by decide
theorem witness_LoopInvariantOfTheCanonicalRun :
    startState.cstr 0x10 = some [0x61#8, 0x62#8] ∧ 2 ≤ [0x61#8, 0x62#8].length ∧ startState.StartsCanonicalRun 0x10 (4 * 2 + 1) := by
  decide
theorem witness_CanonicalRunComputesTheHash :
    startState.cstr 0x10 = some [0x61#8, 0x62#8] ∧ startState.StartsCanonicalRun 0x10 (4 * [0x61#8, 0x62#8].length + 12) ∧
      1 ≤ 20 ∧ 20 ≤ 4 * [0x61#8, 0x62#8].length + 12 := by decide
theorem witness_UnterminatedRunEndsInInputOverrun :
    unterminatedState.cstr 0 = none ∧
      unterminatedState.StartsCanonicalRun 0 (4 * (2 ^ unterminatedState.aw - 1 - 0) + 4) ∧
      1 ≤ 8 ∧ 8 ≤ 4 * (2 ^ unterminatedState.aw - 1 - 0) + 4 := by decide
theorem witness_CanonicalRunNeverHangs :
    startState.StartsCanonicalRun 0x10 (4 * (2 ^ startState.aw - 1) + 12) := by decide
theorem witness_CanonicalRunReadsEachAddressOnce :
    startState.cstr 0x10 = some [0x61#8, 0x62#8] ∧ startState.StartsCanonicalRun 0x10 (4 * [0x61#8, 0x62#8].length + 12) := by decide
theorem witness_ResultDependsOnTheInputStringAlone :
    startState.cstr 0x10 = some [0x61#8, 0x62#8] ∧
      ({ startState with mem := [(1, 0x61#8), (2, 0x62#8), (4, 9#8)], acc := 5#64, inputs := [⟨false, true, 1, []⟩] } : State).cstr 1 =
        some [0x61#8, 0x62#8] ∧
      startState.StartsCanonicalRun 0x10 (4 * [0x61#8, 0x62#8].length + 12) ∧
      ({ startState with mem := [(1, 0x61#8), (2, 0x62#8), (4, 9#8)], acc := 5#64, inputs := [⟨false, true, 1, []⟩] } : State).StartsCanonicalRun
        1 (4 * [0x61#8, 0x62#8].length + 12) := by decide
theorem witness_EmbeddedZeroTruncatesTheInput :
    (∀ ch ∈ [0x61#8], ch ≠ 0#8) ∧ 0x10 + [0x61#8].length < 2 ^ startState.aw ∧
      Memory.bytes [(0x10, 0x61#8), (0x12, 0x62#8)] 0x10 ([0x61#8].length + 1 + [0x62#8].length) = [0x61#8] ++ 0#8 :: [0x62#8] ∧
      ({ startState with mem := [(0x10, 0x61#8), (0x12, 0x62#8)] } : State).StartsCanonicalRun 0x10 (4 * [0x61#8].length + 12) := by
  decide
theorem witness_HashDoesNotDependOnTheWidth : 8 ≤ 8 := by decide
theorem witness_PinnedHashValues :
    startState.mem.read 0x20 = 0#8 ∧
      ({ startState with inputs := [⟨false, true, 0x20, []⟩] } : State).StartsCanonicalRun 0x20 12 := by decide
theorem witness_AssemblerEmitsIllegalWordsOnlyByDirective :
    (assembleOp [] (.fold 7)).toOption = some 0x67#8 ∧ ∀ v, AsmOp.fold 7 ≠ .word v := ⟨by decide, by simp⟩
theorem witness_PlacedWordIsPerformedByTheNextStep : (Instr.fold 1#4).wellFormed = true := by decide

/-- An idle core whose host writes "a" and its terminator at the top of a 256-byte memory and raises `start` at one boundary. -/
def fillAndStartState : State :=
  { State.reset with aw := 8, mem := [(0xFF, 9#8)], inputs := [⟨false, true, 0xFE, [(0xFE, 0x61#8), (0xFF, 0#8)]⟩] }

/-- The same host input with `rst` raised as well. -/
def fillAndResetState : State := { fillAndStartState with inputs := [⟨true, true, 0xFE, [(0xFE, 0x61#8)]⟩] }

theorem witness_HostWritesPrecedeTheEventOfTheirBoundary :
    (fillAndStartState.status.busy = false ∧ fillAndStartState.hostLawful = true ∧ fillAndStartState.hostInput.rst = false ∧
      fillAndStartState.status.fault = false ∧ fillAndStartState.hostInput.start = true ∧
      fillAndStartState.hostInput.base < 2 ^ fillAndStartState.aw ∧
      ∃ u, hostFill fillAndStartState.hostInput.fill fillAndStartState.dropInput = .next u) ∧
    (fillAndResetState.status.busy = false ∧ fillAndResetState.hostInput.rst = true ∧
      ∃ u, hostFill fillAndResetState.hostInput.fill fillAndResetState.dropInput = .next u) ∧
    (fillState.status.busy = false ∧ fillState.hostInput.rst = false ∧ fillState.hostInput.start = false ∧
      ∃ u, hostFill fillState.hostInput.fill fillState.dropInput = .next u) :=
  ⟨⟨rfl, by decide, rfl, rfl, rfl, by decide, _, rfl⟩, ⟨rfl, rfl, _, rfl⟩, rfl, rfl, rfl, _, rfl⟩
theorem witness_RunHashesTheInputWrittenAtItsStart :
    fillAndStartState.prog = Config.canonicalImage ∧ fillAndStartState.status = Status.idle ∧
      fillAndStartState.hostInput.rst = false ∧ fillAndStartState.hostInput.start = true ∧
      fillAndStartState.hostInput.base = 0xFE ∧ 0xFE < 2 ^ fillAndStartState.aw ∧
      ∃ u, hostFill fillAndStartState.hostInput.fill fillAndStartState.dropInput = .next u ∧
        u.cstr 0xFE = some [0x61#8] ∧ u.quietFor (4 * [0x61#8].length + 12) = true :=
  ⟨rfl, rfl, rfl, rfl, rfl, by decide, _, rfl, by decide, by decide⟩

end Sys2Proof.Tests
end

section
/-! PROOFS of the family 10_state.md. What a step can do to STATUS is said once (`sequencerStep_status`, `step_status`); the
table of R27 is then read off from the six values. -/

namespace Sys2Proof.Machine

/-! ### STATUS and its 5-bit word (R26) -/

/-- The 5-bit word holds each field of STATUS at the bits R26 gives it. -/
theorem Status.word_fields (x : Status) :
    x.busy = x.word.getLsbD 0 ∧ x.done = x.word.getLsbD 1 ∧ x.fault = x.word.getLsbD 2 ∧ x.cause = x.word.extractLsb' 3 2 := by
  obtain ⟨b, d, f, c⟩ := x
  revert b d f c
  decide

/-- No field of STATUS is lost in its 5-bit word. -/
theorem Status.word_injective : Function.Injective Status.word := by
  intro x y h
  obtain ⟨hxb, hxd, hxf, hxc⟩ := x.word_fields
  obtain ⟨hyb, hyd, hyf, hyc⟩ := y.word_fields
  rw [h] at hxb hxd hxf hxc
  obtain ⟨xb, xd, xf, xc⟩ := x
  obtain ⟨yb, yd, yf, yc⟩ := y
  rw [Status.mk.injEq]
  exact ⟨hxb.trans hyb.symm, hxd.trans hyd.symm, hxf.trans hyf.symm, hxc.trans hyc.symm⟩

@[simp] theorem Status.word_idle : Status.idle.word = 0b00000#5 := rfl
@[simp] theorem Status.word_run : Status.run.word = 0b00001#5 := rfl
@[simp] theorem Status.word_ended : Status.ended.word = 0b00010#5 := rfl

@[simp] theorem Status.started_idle : Status.idle.started = Status.run := rfl
@[simp] theorem Status.started_ended : Status.ended.started = Status.run := rfl
@[simp] theorem Status.halted_run : Status.run.halted = Status.ended := rfl

/-- A fault of a run gives the FAULTED value of its cause. -/
theorem Status.word_run_faulted (cause : FaultCause) :
    (Status.run.faulted cause).word = 0b01100#5 ∨ (Status.run.faulted cause).word = 0b10100#5 ∨
      (Status.run.faulted cause).word = 0b11100#5 := by
  cases cause <;> decide

/-- The three FAULTED values have BUSY = 0 and FAULT = 1. -/
theorem Status.busy_fault_of_faulted_word {x : Status}
    (h : x.word = 0b01100#5 ∨ x.word = 0b10100#5 ∨ x.word = 0b11100#5) : x.busy = false ∧ x.fault = true := by
  obtain ⟨hb, -, hf, -⟩ := x.word_fields
  rw [hb, hf]
  obtain h | h | h := h <;> rw [h] <;> decide

/-! ### What a step can do to STATUS -/

/-- What a sequencer step can make of STATUS: keep it, HALT's writes (R93), or fault entry's (R124). -/
def Status.SequencerMove (x y : Status) : Prop :=
  y = x ∨ y = x.halted ∨ ∃ cause, y = x.faulted cause

/-- Fault entry's writes are a sequencer step's. -/
theorem Status.sequencerMove_of_fault {s t : State} {cause : FaultCause}
    (h : t = s.setStatus (s.status.faulted cause)) : s.status.SequencerMove t.status :=
  .inr (.inr ⟨cause, by rw [h, State.setStatus_status]⟩)

/-- An operation that finishes with `next` and writes no STATUS of its own keeps STATUS or raises PC_OVERRUN. -/
theorem EndsWith.status {s w t : State} (h : EndsWith s w t) (hw : w.status = s.status) :
    s.status.SequencerMove t.status := by
  obtain ⟨-, h⟩ | ⟨-, rfl⟩ := h
  · exact Status.sequencerMove_of_fault h
  · exact .inl (by rw [State.setPc_status, hw])

/-- R32: of the operations only HALT writes STATUS, apart from fault entry. -/
theorem exec_status {i : Instr} {s t : State} (h : exec i s = .next t) : s.status.SequencerMove t.status := by
  cases i with
  | init => exact (execInit_cases h).status rfl
  | ldb => exact (execLdb_cases h).2.status rfl
  | bz a =>
    obtain ⟨-, rfl⟩ | ⟨-, h⟩ := execBz_cases h
    · exact .inl rfl
    · exact h.status rfl
  | mad =>
    obtain ⟨-, h⟩ | ⟨-, h⟩ := execMad_cases h
    · exact Status.sequencerMove_of_fault h
    · exact h.status rfl
  | br a => exact .inl (by rw [execBr_cases h, State.setPc_status])
  | fold k =>
    obtain ⟨-, h⟩ | ⟨-, h⟩ := execFold_cases h
    · exact Status.sequencerMove_of_fault h
    · exact h.status rfl
  | fin => exact (execFin_cases h).status rfl
  | halt => exact .inr (.inl (by rw [execHalt_cases h, State.setStatus_status]))

theorem sequencerStep_status {s t : State} (h : sequencerStep s = .next t) : s.status.SequencerMove t.status := by
  obtain ⟨i, -, hi⟩ | ⟨e, -, ht⟩ := sequencerStep_cases h
  · exact exec_status hi
  · exact Status.sequencerMove_of_fault ht

/-- What a step does to STATUS, along the four events of a boundary (R103); the host's writes do not touch STATUS. -/
theorem step_status {s t : State} (h : step s = .next t) :
    (s.hostInput.rst = true ∧ t.status = Status.idle) ∨
    (s.hostInput.rst = false ∧ s.status.busy = true ∧ s.status.SequencerMove t.status) ∨
    (s.hostInput.rst = false ∧ s.status.busy = false ∧ s.status.fault = false ∧ t.status = s.status.started) ∨
    (s.hostInput.rst = false ∧ s.status.busy = false ∧ t.status = s.status) := by
  obtain ⟨u, -, hframe, hb⟩ := step_cases h
  have hu : u.status = s.status := by rw [hframe, State.setMem_status, State.dropInput_status]
  rw [← hu]
  obtain ⟨hr, rfl⟩ | ⟨hr, hbusy, hseq⟩ | ⟨hr, hbusy, hf, -, rfl⟩ | ⟨hr, hbusy, -, rfl⟩ := boundary_cases hb
  · exact .inl ⟨hr, rfl⟩
  · exact .inr (.inl ⟨hr, hbusy, sequencerStep_status hseq⟩)
  · exact .inr (.inr (.inl ⟨hr, hbusy, hf, rfl⟩))
  · exact .inr (.inr (.inr ⟨hr, hbusy, rfl⟩))

/-- R140: a reset leads to IDLE from any STATUS. -/
theorem step_status_of_rst {s t : State} (h : step s = .next t) (hr : s.hostInput.rst = true) :
    t.status = Status.idle := by
  obtain ⟨-, ht⟩ | ⟨hr', -⟩ | ⟨hr', -⟩ | ⟨hr', -⟩ := step_status h
  · exact ht
  all_goals exact absurd (hr.symm.trans hr') (by decide)

/-- During a run STATUS moves as the sequencer step moves it. -/
theorem step_status_of_busy {s t : State} (h : step s = .next t) (hr : s.hostInput.rst = false)
    (hb : s.status.busy = true) : s.status.SequencerMove t.status := by
  obtain ⟨hr', -⟩ | ⟨-, -, ht⟩ | ⟨-, hb', -⟩ | ⟨-, hb', -⟩ := step_status h
  · exact absurd (hr.symm.trans hr') (by decide)
  · exact ht
  all_goals exact absurd (hb.symm.trans hb') (by decide)

/-- While no run is in progress STATUS is kept, or a START event writes it if FAULT = 0. -/
theorem step_status_of_not_busy {s t : State} (h : step s = .next t) (hr : s.hostInput.rst = false)
    (hb : s.status.busy = false) : t.status = s.status ∨ (s.status.fault = false ∧ t.status = s.status.started) := by
  obtain ⟨hr', -⟩ | ⟨-, hb', -⟩ | ⟨-, -, hf, ht⟩ | ⟨-, -, ht⟩ := step_status h
  · exact absurd (hr.symm.trans hr') (by decide)
  · exact absurd (hb.symm.trans hb') (by decide)
  · exact .inr ⟨hf, ht⟩
  · exact .inl ht

/-- From RUN a step leads to RUN, to DONE, or to FAULTED. -/
theorem step_status_of_run {s t : State} (h : step s = .next t) (hr : s.hostInput.rst = false)
    (hs : s.status = Status.run) :
    t.status = Status.run ∨ t.status = Status.ended ∨ ∃ cause, t.status = Status.run.faulted cause := by
  have hmove := step_status_of_busy h hr (by rw [hs]; rfl)
  rwa [hs] at hmove

/-! ### The obligations -/

/-- Settles O8, register by register: each is the field that `State.reset` writes. -/
theorem resetStateHoldsZeroInEveryRegister : Obligations.ResetStateHoldsZeroInEveryRegister := by
  unfold Obligations.ResetStateHoldsZeroInEveryRegister
  exact ⟨rfl, rfl, rfl, rfl, rfl, Status.word_idle⟩

/-- Settles O41, by the value of STATUS before the step. The word determines the fields, so each value fixes which events of
the boundary are open. -/
theorem statusMovesOnlyAlongTheFourStates : Obligations.StatusMovesOnlyAlongTheFourStates := by
  unfold Obligations.StatusMovesOnlyAlongTheFourStates
  intro s t _ h
  refine ⟨fun hr => by rw [step_status_of_rst h hr, Status.word_idle], fun hr => ⟨?idle, ?run, ?ended, ?faulted⟩⟩
  case idle =>
    intro hword
    have hs : s.status = Status.idle := Status.word_injective hword
    obtain ht | ⟨-, ht⟩ := step_status_of_not_busy h hr (by rw [hs]; rfl) <;> simp [ht, hs]
  case run =>
    intro hword
    have hs : s.status = Status.run := Status.word_injective hword
    obtain ht | ht | ⟨cause, ht⟩ := step_status_of_run h hr hs
    · simp [ht]
    · simp [ht]
    · rw [ht]
      exact .inr (.inr (Status.word_run_faulted cause))
  case ended =>
    intro hword
    have hs : s.status = Status.ended := Status.word_injective hword
    obtain ht | ⟨-, ht⟩ := step_status_of_not_busy h hr (by rw [hs]; rfl) <;> simp [ht, hs]
  case faulted =>
    intro hword
    obtain ⟨hb, hf⟩ := Status.busy_fault_of_faulted_word hword
    obtain ht | ⟨hf', -⟩ := step_status_of_not_busy h hr hb
    · rw [ht]
    · exact absurd (hf.symm.trans hf') (by decide)

end Sys2Proof.Machine
end

section
/-! PROOFS of the family 20_memory.md. The boundary itself, a run's operation included, keeps both memories and AW
(`boundary_keepsStores`); the host's writes alone touch the input memory, at their own addresses (`hostFill_read_other`). -/

namespace Sys2Proof.Machine

/-! ### What keeps both memories -/

/-- The control store, the address width and the input memory are as before (R41, R44, R55). -/
structure State.KeepsStores (s t : State) : Prop where
  prog : t.prog = s.prog
  aw : t.aw = s.aw
  mem : t.mem = s.mem

/-- An operation that finishes with `next` and whose own writes keep the stores keeps them, PC_OVERRUN or not. -/
theorem EndsWith.keepsStores {s w t : State} (h : EndsWith s w t) (hw : s.KeepsStores w) : s.KeepsStores t := by
  obtain ⟨-, rfl⟩ | ⟨-, rfl⟩ := h
  · exact ⟨rfl, rfl, rfl⟩
  · exact ⟨hw.prog, hw.aw, hw.mem⟩

/-- R44: there is no store operation. -/
theorem exec_keepsStores {i : Instr} {s t : State} (h : exec i s = .next t) : s.KeepsStores t := by
  cases i with
  | init => exact (execInit_cases h).keepsStores ⟨rfl, rfl, rfl⟩
  | ldb => exact (execLdb_cases h).2.keepsStores ⟨rfl, rfl, rfl⟩
  | bz a =>
    obtain ⟨-, rfl⟩ | ⟨-, h⟩ := execBz_cases h
    · exact ⟨rfl, rfl, rfl⟩
    · exact h.keepsStores ⟨rfl, rfl, rfl⟩
  | mad =>
    obtain ⟨-, rfl⟩ | ⟨-, h⟩ := execMad_cases h
    · exact ⟨rfl, rfl, rfl⟩
    · exact h.keepsStores ⟨rfl, rfl, rfl⟩
  | br a => rw [execBr_cases h]; exact ⟨rfl, rfl, rfl⟩
  | fold k =>
    obtain ⟨-, rfl⟩ | ⟨-, h⟩ := execFold_cases h
    · exact ⟨rfl, rfl, rfl⟩
    · exact h.keepsStores ⟨rfl, rfl, rfl⟩
  | fin => exact (execFin_cases h).keepsStores ⟨rfl, rfl, rfl⟩
  | halt => rw [execHalt_cases h]; exact ⟨rfl, rfl, rfl⟩

theorem sequencerStep_keepsStores {s t : State} (h : sequencerStep s = .next t) : s.KeepsStores t := by
  obtain ⟨i, -, hi⟩ | ⟨e, -, rfl⟩ := sequencerStep_cases h
  · exact exec_keepsStores hi
  · exact ⟨rfl, rfl, rfl⟩

/-- None of the four events of a boundary writes a memory (R103, R140). -/
theorem boundary_keepsStores {inp : HostInput} {s t : State} (h : boundary inp s = .next t) : s.KeepsStores t := by
  obtain ⟨-, rfl⟩ | ⟨-, -, hseq⟩ | ⟨-, -, -, -, rfl⟩ | ⟨-, -, -, rfl⟩ := boundary_cases h
  · exact ⟨rfl, rfl, rfl⟩
  · exact sequencerStep_keepsStores hseq
  · exact ⟨rfl, rfl, rfl⟩
  · exact ⟨rfl, rfl, rfl⟩

/-! ### What the host's writes leave alone -/

/-- The host's writes change only the bytes at the addresses written (R144). -/
theorem hostFill_read_other {fill : List Host.Cell} {s t : State} {a : Nat} (h : hostFill fill s = .next t)
    (ha : ∀ b, (a, b) ∉ fill) : t.mem.read a = s.mem.read a := by
  induction fill generalizing s with
  | nil => injection h with h; rw [h]
  | cons cell rest ih =>
    obtain ⟨k, v⟩ := cell
    obtain ⟨-, -, hrest⟩ := hostFill_cons h
    have hak : a ≠ k := by rintro rfl; exact ha v List.mem_cons_self
    calc t.mem.read a = (s.mem.write k v).read a := ih hrest fun b hb => ha b (List.mem_cons_of_mem _ hb)
      _ = s.mem.read a := Memory.read_write_other s.mem k a v hak

/-! ### The obligation -/

/-- Settles O35: the boundary keeps both memories, so what a step changes is what the host's writes before it changed, and
during a run there are none. -/
theorem theCoreNeverWritesMemory : Obligations.TheCoreNeverWritesMemory := by
  unfold Obligations.TheCoreNeverWritesMemory
  intro s t h
  obtain ⟨u, hfill, hframe, hb⟩ := step_cases h
  obtain ⟨hprog, haw, hmem⟩ := boundary_keepsStores hb
  refine ⟨?prog, ?aw, fun hbusy => ?run, fun a ha => ?other⟩
  case prog => rw [hprog, hframe, State.setMem_prog, State.dropInput_prog]
  case aw => rw [haw, hframe, State.setMem_aw, State.dropInput_aw]
  case run => rw [hmem, (hostFill_of_busy (s := s.dropInput) hbusy hfill).2, State.dropInput_mem]
  case other => rw [hmem, hostFill_read_other hfill ha, State.dropInput_mem]

end Sys2Proof.Machine
end

section
/-! PROOFS of the family 30_encoding.md. The decoder is said once, in the two fields of the word (`decode_ok_iff`); the rows of
R58, the ranges of R60 and the words of R64 are read off from it. The step of a running core is its sequencer step
(`step_of_running`). -/

namespace Sys2Proof

/-! ### The fields of a control word (R56) -/

theorem opField_toNat (w : Byte) : (opField w).toNat = w.toNat / 16 := by
  have hlt := w.isLt
  simp only [opField, BitVec.extractLsb'_toNat, Nat.shiftRight_eq_div_pow]
  omega

theorem argField_toNat (w : Byte) : (argField w).toNat = w.toNat % 16 := by
  simp [argField, BitVec.extractLsb'_toNat]

@[simp] theorem opField_append (op arg : Nibble) : opField (op ++ arg : Byte) = op :=
  BitVec.extractLsb'_append_eq_left

@[simp] theorem argField_append (op arg : Nibble) : argField (op ++ arg : Byte) = arg :=
  BitVec.extractLsb'_append_eq_right

@[simp] theorem opField_encode (i : Instr) : opField (encode i) = i.opcode := opField_append i.opcode i.arg

@[simp] theorem argField_encode (i : Instr) : argField (encode i) = i.arg := argField_append i.opcode i.arg

/-- A word is its two fields, so it is the control word of the operation that has them. -/
theorem encode_of_fields {w : Byte} {i : Instr} (hop : opField w = i.opcode) (harg : argField w = i.arg) :
    encode i = w := by
  rw [encode, ← hop, ← harg, opField, argField, BitVec.extractLsb'_append_extractLsb'_eq_extractLsb' (by rfl)]
  exact BitVec.extractLsb'_eq_self

/-! ### What the decoder answers (R57 to R59) -/

theorem decodePlain_ok_iff (i j : Instr) (op arg : Nibble) :
    decodePlain i op arg = .ok j ↔ arg = 0#4 ∧ i = j := by
  unfold decodePlain
  split <;> simp [*]

theorem decodeFold_ok_iff (arg : Nibble) (j : Instr) :
    decodeFold arg = .ok j ↔ legalStage arg = true ∧ .fold arg = j := by
  unfold decodeFold
  split <;> simp [*]

/-- The decoder reads the operation that has the word's two fields, if it is well formed. -/
theorem decode_ok_iff (w : Byte) (i : Instr) :
    decode w = .ok i ↔ opField w = i.opcode ∧ argField w = i.arg ∧ i.wellFormed = true := by
  constructor
  · intro h
    unfold decode at h
    split at h
    case h_3 hop | h_5 hop =>
      injection h with h
      subst h
      exact ⟨BitVec.eq_of_toNat_eq hop, rfl, rfl⟩
    case h_6 hop =>
      obtain ⟨hstage, rfl⟩ := (decodeFold_ok_iff _ _).1 h
      exact ⟨BitVec.eq_of_toNat_eq hop, rfl, hstage⟩
    case h_9 => exact nomatch h
    case h_1 hop | h_2 hop | h_4 hop | h_7 hop | h_8 hop =>
      obtain ⟨harg, rfl⟩ := (decodePlain_ok_iff _ _ _ _).1 h
      exact ⟨BitVec.eq_of_toNat_eq hop, harg, rfl⟩
  · rintro ⟨hop, harg, hwf⟩
    unfold decode
    rw [hop, harg]
    cases i with
    | fold k => exact (decodeFold_ok_iff _ _).2 ⟨hwf, rfl⟩
    | _ => rfl

/-- A well-formed operation is decoded from its own word. -/
theorem decode_encode {i : Instr} (h : i.wellFormed = true) : decode (encode i) = .ok i :=
  (decode_ok_iff _ _).2 ⟨opField_encode i, argField_encode i, h⟩

theorem decode_error_iff (w : Byte) : (∃ e, decode w = .error e) ↔ ¬ ∃ i, decode w = .ok i := by
  cases decode w <;> simp

/-- The legal values of the two fields, as the columns `op` and `legal arg` of the operation map give them (R58, R59). -/
def LegalFields (op arg : Nat) : Prop :=
  ((op = 1 ∨ op = 2 ∨ op = 4 ∨ op = 7 ∨ op = 8) ∧ arg = 0) ∨ op = 3 ∨ op = 5 ∨ (op = 6 ∧ 1 ≤ arg ∧ arg ≤ 7)

/-- The fields of a well-formed operation are legal ones, and each legal pair is an operation's. -/
theorem legalFields_iff (op arg : Nibble) :
    LegalFields op.toNat arg.toNat ↔ ∃ i : Instr, op = i.opcode ∧ arg = i.arg ∧ i.wellFormed = true := by
  constructor
  · rintro (⟨hop, harg⟩ | hop | hop | ⟨hop, hstage⟩)
    · have harg : arg = 0#4 := BitVec.eq_of_toNat_eq harg
      obtain hop | hop | hop | hop | hop := hop
      · exact ⟨.init, BitVec.eq_of_toNat_eq hop, harg, rfl⟩
      · exact ⟨.ldb, BitVec.eq_of_toNat_eq hop, harg, rfl⟩
      · exact ⟨.mad, BitVec.eq_of_toNat_eq hop, harg, rfl⟩
      · exact ⟨.fin, BitVec.eq_of_toNat_eq hop, harg, rfl⟩
      · exact ⟨.halt, BitVec.eq_of_toNat_eq hop, harg, rfl⟩
    · exact ⟨.bz arg, BitVec.eq_of_toNat_eq hop, rfl, rfl⟩
    · exact ⟨.br arg, BitVec.eq_of_toNat_eq hop, rfl, rfl⟩
    · exact ⟨.fold arg, BitVec.eq_of_toNat_eq hop, rfl, (Machine.legalStage_iff arg).2 hstage⟩
  · rintro ⟨i, rfl, rfl, hwf⟩
    cases i with
    | fold k => exact .inr (.inr (.inr ⟨rfl, (Machine.legalStage_iff k).1 hwf⟩))
    | _ => simp [LegalFields, Instr.opcode, Instr.arg]

theorem decode_ok_iff_legalFields (w : Byte) :
    (∃ i, decode w = .ok i) ↔ LegalFields (w.toNat / 16) (w.toNat % 16) := by
  rw [← opField_toNat, ← argField_toNat, legalFields_iff]
  exact exists_congr fun i => decode_ok_iff w i

/-! ### The rows of the operation map (R58) -/

/-- A row of the map selects the word of each well-formed operation. -/
theorem exists_row_selects_encode {i : Instr} (h : i.wellFormed = true) :
    ∃ r ∈ opcodeTable, r.selects (encode i) = true := by
  have hfields : Laws.ControlWordFields.Statement i := by
    cases i with
    | init => exact Laws.ControlWordFields.init
    | ldb => exact Laws.ControlWordFields.ldb
    | bz t => exact Laws.ControlWordFields.bz t
    | mad => exact Laws.ControlWordFields.mad
    | br t => exact Laws.ControlWordFields.br t
    | fold k => exact Laws.ControlWordFields.fold k
    | fin => exact Laws.ControlWordFields.fin
    | halt => exact Laws.ControlWordFields.halt
  exact hfields.2.2 h

/-- A row tests the two fields of the word apart. -/
theorem OpcodeRow.selects_fields {r : OpcodeRow} {w : Byte} (h : r.selects w = true) :
    opField w &&& opField r.mask = opField r.pattern ∧ argField w &&& argField r.mask = argField r.pattern ∧
      (r.argNotZero = true → argField w ≠ 0#4) := by
  simp only [OpcodeRow.selects, Bool.and_eq_true, beq_iff_eq] at h
  obtain ⟨hmask, harg⟩ := h
  refine ⟨?_, ?_, fun hr => by simpa [hr] using harg⟩
  · rw [← hmask, opField, opField, opField, BitVec.extractLsb'_and]
  · rw [← hmask, argField, argField, argField, BitVec.extractLsb'_and]

/-- Every row of the map tests the whole field `op`. -/
theorem opField_of_selects {r : OpcodeRow} {w : Byte} (hr : r ∈ opcodeTable) (h : r.selects w = true) :
    opField w = opField r.pattern := by
  have hmask : ∀ r ∈ opcodeTable, opField r.mask = BitVec.allOnes 4 := by decide
  rw [← (OpcodeRow.selects_fields h).1, hmask r hr, BitVec.and_allOnes]

/-- No two rows of the map have one opcode. -/
theorem row_eq_of_opField_eq :
    ∀ r ∈ opcodeTable, ∀ q ∈ opcodeTable, opField r.pattern = opField q.pattern → r = q := by
  decide

/-- The mask of the row FOLD leaves bit 3 of `arg` to be 0, and its condition leaves 0 out: the stages 1 to 7 remain. -/
theorem legalStage_of_fold_mask : ∀ arg : Nibble, arg &&& 0x8#4 = 0#4 → arg ≠ 0#4 → legalStage arg = true := by
  decide

/-- A word that a row of the map selects has the fields of a well-formed operation. -/
theorem decode_of_row_selects {r : OpcodeRow} {w : Byte} (hr : r ∈ opcodeTable) (h : r.selects w = true) :
    ∃ i, decode w = .ok i := by
  have hop := opField_of_selects hr h
  obtain ⟨-, harg, hnz⟩ := OpcodeRow.selects_fields h
  have hall (hm : argField r.mask = BitVec.allOnes 4) : argField w = argField r.pattern := by
    rw [← harg, hm, BitVec.and_allOnes]
  simp only [opcodeTable, List.mem_cons, List.not_mem_nil, or_false] at hr
  obtain rfl | rfl | rfl | rfl | rfl | rfl | rfl | rfl := hr
  · exact ⟨.init, (decode_ok_iff _ _).2 ⟨hop, hall rfl, rfl⟩⟩
  · exact ⟨.ldb, (decode_ok_iff _ _).2 ⟨hop, hall rfl, rfl⟩⟩
  · exact ⟨.bz (argField w), (decode_ok_iff _ _).2 ⟨hop, rfl, rfl⟩⟩
  · exact ⟨.mad, (decode_ok_iff _ _).2 ⟨hop, hall rfl, rfl⟩⟩
  · exact ⟨.br (argField w), (decode_ok_iff _ _).2 ⟨hop, rfl, rfl⟩⟩
  · exact ⟨.fold (argField w), (decode_ok_iff _ _).2 ⟨hop, rfl, legalStage_of_fold_mask _ harg (hnz rfl)⟩⟩
  · exact ⟨.fin, (decode_ok_iff _ _).2 ⟨hop, hall rfl, rfl⟩⟩
  · exact ⟨.halt, (decode_ok_iff _ _).2 ⟨hop, hall rfl, rfl⟩⟩

theorem decode_ok_iff_row_selects (w : Byte) :
    (∃ i, decode w = .ok i) ↔ ∃ r ∈ opcodeTable, r.selects w = true := by
  constructor
  · rintro ⟨i, hi⟩
    obtain ⟨hop, harg, hwf⟩ := (decode_ok_iff w i).1 hi
    rw [← encode_of_fields hop harg]
    exact exists_row_selects_encode hwf
  · rintro ⟨r, hr, hsel⟩
    exact decode_of_row_selects hr hsel

/-- The rows BZ, BR and FOLD: base word plus operand is the control word (R58). -/
theorem base_add_operand (t : Nibble) :
    0x30#8 + t.setWidth 8 = encode (.bz t) ∧ 0x50#8 + t.setWidth 8 = encode (.br t) ∧
      0x60#8 + t.setWidth 8 = encode (.fold t) := by
  revert t
  decide

/-- Of the 256 words 44 decode: a finite count, made by running the decoder on each (R58). -/
theorem count_of_legal_words : ((List.range 256).filter (fun n => (decodeTableWord 8 n).isSome)).length = 44 := by
  decide

end Sys2Proof

namespace Sys2Proof.Machine

/-! ### The step of a running core and of one that is not (R57, R103) -/

/-- While BUSY = 1 a step with a quiet host is a sequencer step, taken with the boundary's input consumed. -/
theorem step_of_running {s : State} (h : s.Running) : step s = sequencerStep s.dropInput := by
  obtain ⟨hbusy, hquiet⟩ := h
  rw [step_of_quiet hquiet]
  simp [boundary, ((quiet_iff _).1 hquiet).1, hbusy]

theorem sequencerStep_of_decode_ok {s : State} {i : Instr} (h : decode s.fetch = .ok i) :
    sequencerStep s = exec i s := by
  rw [sequencerStep, h]

theorem sequencerStep_of_decode_error {s : State} {e : IllegalWord} (h : decode s.fetch = .error e) :
    sequencerStep s = raiseFault .illegalOp s := by
  rw [sequencerStep, h]

/-- A running core at an illegal word enters ILLEGAL_OP. -/
theorem step_of_illegal_word {s : State} {e : IllegalWord} (hs : s.Running) (h : decode s.fetch = .error e) :
    step s = raiseFault .illegalOp s.dropInput := by
  rw [step_of_running hs]
  exact sequencerStep_of_decode_error h

/-- While BUSY = 0 a step with a quiet host performs no operation. -/
theorem step_of_not_busy {s : State} (hbusy : s.status.busy = false) (hquiet : s.hostInput.quiet = true) :
    step s = .next s.dropInput ∨ step s = .next (startEvent s.hostInput.base s.dropInput) := by
  rw [step_of_quiet hquiet, boundary]
  simp only [((quiet_iff _).1 hquiet).1, State.dropInput_status, hbusy, Bool.false_eq_true, if_false]
  by_cases hstart : (!s.status.fault && s.hostInput.start) = true
  · exact .inr (if_pos hstart)
  · exact .inl (if_neg hstart)

end Sys2Proof.Machine

namespace Sys2Proof

open Sys2Proof.Machine

/-! ### The obligations -/

/-- Settles O3: each printed word is the control word of its well-formed operation, so decoding gives the operation back. -/
theorem printedWordsAreTheirOperations : Obligations.PrintedWordsAreTheirOperations := by
  unfold Obligations.PrintedWordsAreTheirOperations
  exact ⟨⟨decode_encode (i := .init) rfl, decode_encode (i := .ldb) rfl, decode_encode (i := .bz 5#4) rfl,
    decode_encode (i := .mad) rfl, decode_encode (i := .br 1#4) rfl, decode_encode (i := .fold 1#4) rfl,
    decode_encode (i := .fold 7#4) rfl, decode_encode (i := .fin) rfl, decode_encode (i := .halt) rfl⟩,
    rfl, rfl, rfl, rfl, rfl, rfl, rfl, rfl, rfl⟩

/-- Settles O4: the illegal words are those whose fields are no legal pair, and 16 * `op` + `arg` runs through the printed
ranges; a running core at one of them enters ILLEGAL_OP. -/
theorem illegalWordsRaiseIllegalOp : Obligations.IllegalWordsRaiseIllegalOp := by
  unfold Obligations.IllegalWordsRaiseIllegalOp
  refine ⟨fun w => ?ranges, fun s e hs he => step_of_illegal_word hs he⟩
  rw [decode_error_iff, decode_ok_iff_legalFields, LegalFields]
  omega

/-- Settles O5, row by row: the words of a row are the control words of its operation, and each row tests the whole `op`. -/
theorem operationMapIsDecoded : Obligations.OperationMapIsDecoded := by
  unfold Obligations.OperationMapIsDecoded
  refine ⟨⟨decode_encode (i := .init) rfl, decode_encode (i := .ldb) rfl, fun t => ?bz, decode_encode (i := .mad) rfl,
    fun t => ?br, fun k hlo hhi => ?fold, decode_encode (i := .fin) rfl, decode_encode (i := .halt) rfl⟩,
    decode_ok_iff_row_selects, fun w r q hr hq hrw hqw => ?unique, count_of_legal_words⟩
  case bz => rw [(base_add_operand t).1, decode_encode rfl]
  case br => rw [(base_add_operand t).2.1, decode_encode rfl]
  case fold => rw [(base_add_operand k).2.2, decode_encode (i := .fold k) ((legalStage_iff k).2 ⟨hlo, hhi⟩)]
  case unique => exact row_eq_of_opField_eq r hr q hq ((opField_of_selects hr hrw).symm.trans (opField_of_selects hq hqw))

/-- Settles O6: a running step is the sequencer step, by what the fetched word decodes to; a core that is not running takes the
START event or nothing. -/
theorem stepPerformsTheDecodedOperation : Obligations.StepPerformsTheDecodedOperation := by
  unfold Obligations.StepPerformsTheDecodedOperation
  refine ⟨fun s hs => ⟨fun i hi => ?perform, fun e he => step_of_illegal_word hs he⟩, fun s => step_of_not_busy⟩
  rw [step_of_running hs]
  exact sequencerStep_of_decode_ok hi

end Sys2Proof
end

section
/-! PROOFS of the family 40_accumulate.md. What MAD computes is said once (`multiplyAdd_eq`, R74 and R75) and so is its number
(`multiplyAdd_toNat`, R73); the low byte law R76 is read off from it. Each operation's ends are those of `advance`. -/

namespace Sys2Proof.Machine

/-! ### The arithmetic of MAD (R73 to R76) -/

/-- R74: the shift and add of the hardware is the product with 33. -/
theorem shiftLeft_five_add_self (a : Word) : (a <<< 5) + a = a * 33#64 := by
  calc (a <<< 5) + a
    _ = a * 32#64 + a := by rw [BitVec.shiftLeft_eq_mul_twoPow]; rfl
    _ = a * 33#64 := BitVec.mul_succ.symm

/-- R74, R75: MAD writes ACC * 33 + C, with C as a number 0 to 255. -/
theorem multiplyAdd_eq (a : Word) (c : Byte) : multiplyAdd a c = a * 33#64 + BitVec.ofNat 64 c.toNat := by
  rw [multiplyAdd, shiftLeft_five_add_self, BitVec.ofNat_toNat]

/-- R73: the value that MAD writes, as a number modulo `2^64`. -/
theorem multiplyAdd_toNat (a : Word) (c : Byte) : (multiplyAdd a c).toNat = (a.toNat * 33 + c.toNat) % 2 ^ 64 := by
  simp [multiplyAdd_eq]

/-- R76: `2^64` is a multiple of 256, so reducing modulo `2^64` keeps the low byte, and a carry never moves down into it. -/
theorem multiplyAdd_toNat_mod_256 (a : Word) (c : Byte) :
    (multiplyAdd a c).toNat % 256 = (a.toNat % 256 * 33 + c.toNat) % 256 := by
  rw [multiplyAdd_toNat]
  omega

theorem lane_zero_toNat (a : Word) : (lane 0 a).toNat = a.toNat % 256 := by
  simp [lane, BitVec.extractLsb'_toNat]

theorem lane_zero_eq_iff (a b : Word) : lane 0 a = lane 0 b ↔ a.toNat % 256 = b.toNat % 256 := by
  rw [← BitVec.toNat_inj, lane_zero_toNat, lane_zero_toNat]

/-- One MAD keeps two accumulators alike in lane 0. -/
theorem lane_zero_multiplyAdd_congr {a b : Word} (c : Byte) (h : lane 0 a = lane 0 b) :
    lane 0 (multiplyAdd a c) = lane 0 (multiplyAdd b c) := by
  rw [lane_zero_eq_iff] at h ⊢
  rw [multiplyAdd_toNat_mod_256, multiplyAdd_toNat_mod_256, h]

/-- Any number of MADs keeps two accumulators alike in lane 0, whatever bytes they absorb. -/
theorem lane_zero_foldl_multiplyAdd_congr (absorbed : List Byte) {a b : Word} (h : lane 0 a = lane 0 b) :
    lane 0 (absorbed.foldl multiplyAdd a) = lane 0 (absorbed.foldl multiplyAdd b) := by
  induction absorbed generalizing a b with
  | nil => exact h
  | cons c rest ih => exact ih (lane_zero_multiplyAdd_congr c h)

/-! ### LDB and MAD away from their own stops (R71, R72) -/

/-- LDB at an address that exists loads the byte there and ends with `next`. -/
theorem exec_ldb_of_lt {s : State} (h : s.ptr < 2 ^ s.aw) : exec .ldb s = advance s (s.setC (s.mem.read s.ptr)) := by
  simp only [exec, execLdb, memRead_of_lt s.ptr s h]

/-- MAD at the top address raises INPUT_OVERRUN, whatever PC is. -/
theorem exec_mad_of_top {s : State} (h : s.ptr = 2 ^ s.aw - 1) : exec .mad s = raiseFault .inputOverrun s := if_pos h

/-- MAD below the top address absorbs the byte, moves PTR on with no wrap, and ends with `next`. -/
theorem exec_mad_of_below_top {s : State} (hptr : s.ptr < 2 ^ s.aw) (htop : s.ptr ≠ 2 ^ s.aw - 1) :
    exec .mad s = advance s
      { s with acc := s.acc * 33#64 + BitVec.ofNat 64 s.c.toNat, ptr := s.ptr + 1 } := by
  have hnext : s.ptr + 1 < 2 ^ s.aw := by omega
  calc exec .mad s
    _ = advance s ((s.setAcc (multiplyAdd s.acc s.c)).setPtr (s.ptr + 1)) := if_neg htop
    _ = _ := by rw [setPtr_of_lt (s.setAcc (multiplyAdd s.acc s.c)) _ hnext, multiplyAdd_eq]; rfl

/-! ### The obligations -/

/-- Settles O14: INIT is its write of the seed, ended by `next`. -/
theorem initSeedsTheAccumulator : Obligations.InitSeedsTheAccumulator := by
  unfold Obligations.InitSeedsTheAccumulator
  exact ⟨decode_encode (i := .init) rfl, fun s => ⟨advance_of_ne s (s.setAcc seed), advance_of_eq s (s.setAcc seed)⟩⟩

/-- Settles O15: at an address that exists LDB is its write of the byte read, ended by `next`. -/
theorem ldbLoadsTheByteAtThePointer : Obligations.LdbLoadsTheByteAtThePointer := by
  unfold Obligations.LdbLoadsTheByteAtThePointer
  refine ⟨decode_encode (i := .ldb) rfl, fun s hptr => ?_⟩
  rw [exec_ldb_of_lt hptr]
  exact ⟨advance_of_ne s _, advance_of_eq s _⟩

/-- Settles O17: the test of the top address comes first; below it MAD is its two writes, ended by `next`. -/
theorem madAbsorbsTheByte : Obligations.MadAbsorbsTheByte := by
  unfold Obligations.MadAbsorbsTheByte
  refine ⟨decode_encode (i := .mad) rfl, fun s hptr => ⟨fun htop hpc => ?absorbs, exec_mad_of_top, fun htop hpc => ?pcOverrun⟩⟩
  case absorbs =>
    rw [exec_mad_of_below_top hptr htop]
    exact advance_of_ne s _ hpc
  case pcOverrun =>
    rw [exec_mad_of_below_top hptr htop]
    exact advance_of_eq s _ hpc

/-- Settles O18: the law for one MAD is arithmetic modulo 256, and lane 0 is the value modulo 256, so it carries over any number
of MADs by induction on the bytes absorbed. -/
theorem lowByteOfMultiplyAddNeedsOnlyTheLowByte : Obligations.LowByteOfMultiplyAddNeedsOnlyTheLowByte := by
  unfold Obligations.LowByteOfMultiplyAddNeedsOnlyTheLowByte
  refine ⟨fun a c => ⟨?product, multiplyAdd_toNat_mod_256 a c⟩, fun a b absorbed => lane_zero_foldl_multiplyAdd_congr absorbed⟩
  case product => rw [← multiplyAdd_eq, multiplyAdd_toNat_mod_256]

end Sys2Proof.Machine
end

section
/-! PROOFS of the family 41_fold.md. What a stage does is said once per byte lane (`lane_foldStage`, R84), and so is what any list
of stages does (`lane_foldl_foldStage`); as an AND with a constant (`foldStage_eq_and_not`) the stages commute (R87), so the order
1 to 7 stands for all. Each operation's ends are those of `advance`. -/

namespace Sys2Proof.Machine

/-! ### The stage constants (R82) -/

/-- `1 >> (8 * i)` is 0 from stage 1 on. -/
theorem stageShift_of_pos {i : Nibble} (h : 1 ≤ i.toNat) : stageShift i = 0 := by
  rw [stageShift, BitVec.toNat_ushiftRight, Nat.shiftRight_eq_div_pow]
  exact Nat.div_eq_of_lt (Nat.one_lt_two_pow (by omega))

/-- The mask of stage `i` is lane `i` all ones. The mask of the number 0, which is no stage, is lane 0. -/
theorem lane_stageMask {i : Nibble} {k : Nat} (hi : i.toNat ≤ 7) (hk : k < 8) :
    lane k (stageMask i) = if k = i.toNat then 0xFF#8 else 0x00#8 := by
  have htable : ∀ i : Nibble, i.toNat ≤ 7 → ∀ k : Fin 8,
      lane k.val (stageMask i) = if k.val = i.toNat then 0xFF#8 else 0x00#8 := by decide
  exact htable i hi ⟨k, hk⟩

theorem lane_and_stageMask {i : Nibble} {k : Nat} (hi : i.toNat ≤ 7) (hk : k < 8) (a : Word) :
    lane k (a &&& stageMask i) = if k = i.toNat then lane k a else 0x00#8 := by
  have hand : lane k (a &&& stageMask i) = lane k a &&& lane k (stageMask i) := BitVec.extractLsb'_and
  rw [hand, lane_stageMask hi hk]
  split
  · exact BitVec.and_allOnes
  · exact BitVec.and_zero

/-! ### A 64-bit value is its eight byte lanes -/

/-- Bit `n` of a value is bit `n % 8` of its lane `n / 8`. -/
theorem getLsbD_lane (n : Nat) (a : Word) : (lane (n / 8) a).getLsbD (n % 8) = a.getLsbD n := by
  rw [lane, BitVec.getLsbD_extractLsb', decide_eq_true (Nat.mod_lt n (by decide)), Bool.true_and, Nat.div_add_mod]

theorem eq_of_lane_eq {a b : Word} (h : ∀ k < 8, lane k a = lane k b) : a = b := by
  refine BitVec.eq_of_getLsbD_eq fun n hn => ?_
  rw [← getLsbD_lane, ← getLsbD_lane n b, h (n / 8) (by omega)]

/-! ### One stage (R84, R85) -/

theorem foldStage_eq_xor {i : Nibble} (h : 1 ≤ i.toNat) (a : Word) : foldStage i a = a ^^^ (a &&& stageMask i) := by
  rw [foldStage, stageShift_of_pos h, BitVec.ushiftRight_zero]

/-- R84, bit by bit: where the mask has a 1 the bit is `a[k] ^ a[k]`, where it has a 0 it is `a[k] ^ 0`. -/
theorem xor_and_eq_and_not (a m : Word) : a ^^^ (a &&& m) = a &&& ~~~m := by
  ext k hk
  rw [BitVec.getElem_xor, BitVec.getElem_and, BitVec.getElem_and, BitVec.getElem_not]
  cases a[k] <;> cases m[k] <;> rfl

theorem foldStage_eq_and_not {i : Nibble} (h : 1 ≤ i.toNat) (a : Word) : foldStage i a = a &&& ~~~(stageMask i) := by
  rw [foldStage_eq_xor h, xor_and_eq_and_not]

/-- R84: stage `i` clears lane `i` and leaves the other lanes. -/
theorem lane_foldStage {i : Nibble} {k : Nat} (hlo : 1 ≤ i.toNat) (hhi : i.toNat ≤ 7) (hk : k < 8) (a : Word) :
    lane k (foldStage i a) = if k = i.toNat then 0x00#8 else lane k a := by
  have hxor : lane k (a ^^^ (a &&& stageMask i)) = lane k a ^^^ lane k (a &&& stageMask i) := BitVec.extractLsb'_xor
  rw [foldStage_eq_xor hlo, hxor, lane_and_stageMask hhi hk]
  split
  · exact BitVec.xor_self
  · exact BitVec.xor_zero

/-- R87: two ANDs with constants commute. -/
theorem foldStage_comm {i j : Nibble} (hi : 1 ≤ i.toNat) (hj : 1 ≤ j.toNat) (a : Word) :
    foldStage i (foldStage j a) = foldStage j (foldStage i a) := by
  simp only [foldStage_eq_and_not hi, foldStage_eq_and_not hj]
  rw [BitVec.and_assoc, BitVec.and_comm (~~~(stageMask j)), BitVec.and_assoc]

/-- R87: an AND with a constant, done twice, is that AND. -/
theorem foldStage_idem {i : Nibble} (hi : 1 ≤ i.toNat) (a : Word) : foldStage i (foldStage i a) = foldStage i a := by
  simp only [foldStage_eq_and_not hi]
  rw [BitVec.and_assoc, BitVec.and_self]

/-! ### Several stages (R86, R87) -/

/-- Stages in any order, with or without repeats, clear the lanes they name and leave the others. -/
theorem lane_foldl_foldStage (order : List Nibble) (horder : ∀ i ∈ order, 1 ≤ i.toNat ∧ i.toNat ≤ 7) {k : Nat}
    (hk : k < 8) (a : Word) :
    lane k (order.foldl (fun x i => foldStage i x) a) = if k ∈ order.map BitVec.toNat then 0x00#8 else lane k a := by
  induction order generalizing a with
  | nil => rfl
  | cons i rest ih =>
    obtain ⟨⟨hlo, hhi⟩, hrest⟩ := List.forall_mem_cons.1 horder
    rw [List.foldl_cons, ih hrest, lane_foldStage hlo hhi hk, List.map_cons]
    by_cases hmem : k ∈ rest.map BitVec.toNat <;> simp [hmem]

/-- The stages of the canonical image are stages. -/
theorem stages_legal : ∀ i ∈ [1#4, 2#4, 3#4, 4#4, 5#4, 6#4, 7#4], 1 ≤ i.toNat ∧ i.toNat ≤ 7 := by decide

/-- R86: the stages 1 to `j` clear the lanes 1 to `j`. -/
theorem lane_foldl_first_stages {j k : Nat} (hj : j ≤ 7) (hk : k < 8) (a : Word) :
    lane k (([1#4, 2#4, 3#4, 4#4, 5#4, 6#4, 7#4].take j).foldl (fun x i => foldStage i x) a) =
      if 1 ≤ k ∧ k ≤ j then 0x00#8 else lane k a := by
  have hnumbers : ∀ j ≤ 7, ([1#4, 2#4, 3#4, 4#4, 5#4, 6#4, 7#4].take j).map BitVec.toNat = List.range' 1 j := by decide
  have hlanes : k ∈ List.range' 1 j ↔ 1 ≤ k ∧ k ≤ j := by rw [List.mem_range'_1]; omega
  rw [lane_foldl_foldStage _ (fun i hi => stages_legal i (List.mem_of_mem_take hi)) hk, hnumbers j hj]
  simp only [hlanes]

/-- R86: after the seven stages ACC is `a & 0xFF`, lane by lane. -/
theorem foldl_seven_stages (a : Word) :
    [1#4, 2#4, 3#4, 4#4, 5#4, 6#4, 7#4].foldl (fun x i => foldStage i x) a = a &&& 0xFF#64 := by
  refine eq_of_lane_eq fun k hk => ?_
  have hstages := lane_foldl_first_stages (j := 7) (by decide) hk a
  have hmask : lane k (a &&& 0xFF#64) = if k = 0 then lane k a else 0x00#8 := lane_and_stageMask (i := 0#4) (by decide) hk a
  rw [List.take_of_length_le (by decide)] at hstages
  rw [hstages, hmask]
  obtain rfl | hpos := Nat.eq_zero_or_pos k
  · rfl
  · rw [if_pos ⟨hpos, by omega⟩, if_neg (by omega)]

/-- R87: the stages commute, so every order gives what the order 1 to 7 gives. -/
theorem foldl_stages_of_perm {order : List Nibble} (h : order.Perm [1#4, 2#4, 3#4, 4#4, 5#4, 6#4, 7#4]) (a : Word) :
    order.foldl (fun x i => foldStage i x) a = a &&& 0xFF#64 := by
  have hpos : ∀ i ∈ order, 1 ≤ i.toNat := fun i hi => (stages_legal i (h.mem_iff.1 hi)).1
  rw [h.foldl_eq' (fun i hi j hj x => foldStage_comm (hpos j hj) (hpos i hi) x) a]
  exact foldl_seven_stages a

theorem and_0xFF_eq_ofNat (a : Word) : a &&& 0xFF#64 = BitVec.ofNat 64 (a.toNat % 256) := by
  apply BitVec.eq_of_toNat_eq
  calc (a &&& 0xFF#64).toNat
    _ = a.toNat % 256 := Nat.and_two_pow_sub_one_eq_mod a.toNat 8
    _ = (BitVec.ofNat 64 (a.toNat % 256)).toNat := (Nat.mod_eq_of_lt (by omega)).symm

/-! ### FIN (R81) -/

/-- The mask of FIN keeps lane 0, which is all that FIN delivers. -/
theorem finalMask_eq_lane (a : Word) : finalMask a = lane 0 a :=
  lane_and_stageMask (i := 0#4) (k := 0) (by decide) (by decide) a

theorem finalMask_eq_ofNat (a : Word) : finalMask a = BitVec.ofNat 8 (a.toNat % 256) := by
  rw [finalMask_eq_lane, ← lane_zero_toNat, BitVec.ofNat_toNat, BitVec.setWidth_eq]

/-! ### Performing FOLD -/

/-- FOLD with a stage number 1 to 7 is the write of its stage, ended by `next`. -/
theorem exec_fold_of_legal {i : Nibble} (hlo : 1 ≤ i.toNat) (hhi : i.toNat ≤ 7) (s : State) :
    exec (.fold i) s = advance s (s.setAcc (foldStage i s.acc)) := if_pos ((legalStage_iff i).2 ⟨hlo, hhi⟩)

/-- R60: the word of a stage number outside 1 to 7 does not decode. -/
theorem decode_fold_word_error {i : Nibble} (h : i.toNat = 0 ∨ 8 ≤ i.toNat) :
    ∃ e, decode (encode (.fold i)) = .error e := by
  rw [decode_error_iff, decode_ok_iff_legalFields, ← opField_toNat, ← argField_toNat, opField_encode, argField_encode]
  simp only [LegalFields, Instr.opcode, Instr.arg, BitVec.toNat_ofNat]
  omega

/-! ### The obligations -/

/-- Settles O21: the word of a stage decodes to it and performing it is its formula, ended by `next`; the word of another number
does not decode, so a running core at it enters ILLEGAL_OP. -/
theorem foldAppliesTheStageFormula : Obligations.FoldAppliesTheStageFormula := by
  unfold Obligations.FoldAppliesTheStageFormula
  intro i
  rw [(base_add_operand i).2.2]
  refine ⟨fun hout => ?illegal, fun hlo hhi => ⟨decode_encode ((legalStage_iff i).2 ⟨hlo, hhi⟩), fun s => ?stage⟩⟩
  case illegal =>
    obtain ⟨e, he⟩ := decode_fold_word_error hout
    exact ⟨⟨e, he⟩, fun s hs hword => step_of_illegal_word hs (by rw [State.fetch, hword, he])⟩
  case stage =>
    rw [exec_fold_of_legal hlo hhi]
    exact ⟨advance_of_ne s _, advance_of_eq s _⟩

/-- Settles O24: the stage is an AND with the complement of its mask, and the mask is lane `i` all ones. -/
theorem foldClearsItsLaneAndNoOther : Obligations.FoldClearsItsLaneAndNoOther := by
  unfold Obligations.FoldClearsItsLaneAndNoOther
  intro i hlo hhi
  refine ⟨fun a => ⟨by rw [BitVec.ushiftRight_zero], xor_and_eq_and_not a (stageMask i)⟩, fun s hpc =>
    ⟨(s.setAcc (foldStage i s.acc)).setPc (s.pc + 1#4), ?next, rfl, foldStage_eq_and_not hlo s.acc, ?cleared,
      fun k hk hne => ?kept⟩⟩
  case next => rw [exec_fold_of_legal hlo hhi, advance_of_ne s _ hpc]
  case cleared => exact (lane_foldStage hlo hhi (by omega) s.acc).trans (if_pos rfl)
  case kept => exact (lane_foldStage hlo hhi hk s.acc).trans (if_neg hne)

/-- Settles O25: the stages 1 to `j` clear the lanes 1 to `j`, so the seven of them leave lane 0 alone. -/
theorem sevenStagesLeaveTheLowByte : Obligations.SevenStagesLeaveTheLowByte := by
  unfold Obligations.SevenStagesLeaveTheLowByte
  intro a
  refine ⟨?seven, fun j k hj hk => lane_foldl_first_stages hj (by omega) a⟩
  case seven => rw [foldl_seven_stages, and_0xFF_eq_ofNat]

/-- Settles O26: each stage is an AND with a constant. -/
theorem stagesCommuteAndAreIdempotent : Obligations.StagesCommuteAndAreIdempotent := by
  unfold Obligations.StagesCommuteAndAreIdempotent
  exact ⟨fun a i j hi _ hj _ => ⟨foldStage_comm hi hj a, foldStage_idem hi a⟩, fun a order h => foldl_stages_of_perm h a⟩

/-- Settles O28: FIN delivers lane 0, and no stage clears lane 0. -/
theorem postProcessDoesNotChangeTheResult : Obligations.PostProcessDoesNotChangeTheResult := by
  unfold Obligations.PostProcessDoesNotChangeTheResult
  intro a
  refine ⟨?stages, finalMask_eq_lane a⟩
  rw [finalMask_eq_lane, finalMask_eq_lane]
  exact lane_foldl_first_stages (j := 7) (by decide) (by decide) a

/-- Settles O23: the seven masks by computing them, and the lane that each covers. -/
theorem stageConstantsAreThoseOfTheTable : Obligations.StageConstantsAreThoseOfTheTable := by
  unfold Obligations.StageConstantsAreThoseOfTheTable
  exact ⟨rfl, rfl, rfl, rfl, rfl, rfl, rfl, fun i hlo hhi => ⟨stageShift_of_pos hlo, fun k => lane_stageMask hhi k.isLt⟩⟩

/-- Settles O27: FIN is its write of the low byte, ended by `next`. -/
theorem finDeliversTheLowByte : Obligations.FinDeliversTheLowByte := by
  unfold Obligations.FinDeliversTheLowByte
  refine ⟨decode_encode (i := .fin) rfl, fun s => ?_⟩
  rw [← finalMask_eq_ofNat]
  exact ⟨advance_of_ne s (s.setResult (finalMask s.acc)), advance_of_eq s (s.setResult (finalMask s.acc))⟩

end Sys2Proof.Machine
end

section
/-! PROOFS of the family 42_control.md. The two ends of BZ are said once (`exec_bz_of_zero`, `exec_bz_of_ne_zero`); what a core
that is not running does at a boundary is said by the value of `start` (`step_of_no_start`, `step_of_start`). -/

namespace Sys2Proof.Machine

/-! ### BZ by its condition (R91) -/

theorem isZeroByte_iff (c : Byte) : isZeroByte c = true ↔ c = 0#8 := beq_iff_eq

/-- A taken BZ jumps, whatever PC is. -/
theorem exec_bz_of_zero {s : State} (t : Nibble) (h : s.c = 0#8) : exec (.bz t) s = .next (s.setPc t) :=
  if_pos ((isZeroByte_iff s.c).2 h)

/-- A BZ that is not taken is `next` with no other write. -/
theorem exec_bz_of_ne_zero {s : State} (t : Nibble) (h : s.c ≠ 0#8) : exec (.bz t) s = advance s s :=
  if_neg (mt (isZeroByte_iff s.c).1 h)

/-! ### The step of a core that is not running, by `start` (R102, R103) -/

/-- With BUSY = 0 and no `start`, a step with a quiet host only consumes the boundary's input. -/
theorem step_of_no_start {s : State} (hbusy : s.status.busy = false) (hquiet : s.hostInput.quiet = true)
    (hstart : s.hostInput.start = false) : step s = .next s.dropInput := by
  rw [step_of_quiet hquiet]
  simp [boundary, ((quiet_iff _).1 hquiet).1, hbusy, hstart]

/-- With BUSY = 0 and FAULT = 0, a step with a quiet host that raises `start` is the START event. -/
theorem step_of_start {s : State} (hbusy : s.status.busy = false) (hfault : s.status.fault = false)
    (hquiet : s.hostInput.quiet = true) (hstart : s.hostInput.start = true) :
    step s = .next (startEvent s.hostInput.base s.dropInput) := by
  rw [step_of_quiet hquiet]
  simp [boundary, ((quiet_iff _).1 hquiet).1, hbusy, hfault, hstart]

/-! ### The obligations -/

/-- Settles O29: a taken BZ jumps before PC is looked at; one that is not taken has the two ends of `next`. -/
theorem bzBranchesOnAZeroByte : Obligations.BzBranchesOnAZeroByte := by
  unfold Obligations.BzBranchesOnAZeroByte
  intro t
  rw [(base_add_operand t).1]
  refine ⟨decode_encode rfl, fun s => ⟨exec_bz_of_zero t, fun hc hpc => ?next, fun hc hpc => ?pcOverrun⟩⟩
  case next =>
    rw [exec_bz_of_ne_zero t hc]
    exact advance_of_ne s s hpc
  case pcOverrun =>
    rw [exec_bz_of_ne_zero t hc]
    exact advance_of_eq s s hpc

/-- Settles O30: BR is its write of PC, and never reaches `next`. -/
theorem brJumpsToItsTarget : Obligations.BrJumpsToItsTarget := by
  unfold Obligations.BrJumpsToItsTarget
  intro t
  rw [(base_add_operand t).2.1]
  exact ⟨decode_encode rfl, fun s => rfl⟩

/-- Settles O31: HALT leaves BUSY = 0 and FAULT as it was, so the boundary after it takes the START event or nothing. -/
theorem haltEndsTheRun : Obligations.HaltEndsTheRun := by
  unfold Obligations.HaltEndsTheRun
  refine ⟨decode_encode (i := .halt) rfl, fun s => ⟨rfl, fun t ht hquiet => ?after⟩⟩
  have htstatus : t.status = s.status.halted := by rw [execHalt_cases ht, State.setStatus_status]
  have hbusy : t.status.busy = false := by rw [htstatus, Status.halted_busy]
  refine ⟨step_of_no_start hbusy hquiet, fun hstart hf => ?restart⟩
  have hfault : t.status.fault = false := by rw [htstatus, Status.halted_fault, hf]
  exact ⟨_, step_of_start hbusy hfault hquiet hstart, startEvent_pc _ _, rfl⟩

end Sys2Proof.Machine
end

section
/-! PROOFS of the family 43_hash_run.md. A canonical run is followed through the states it passes (`State.inRun`), operation by
operation: START and INIT, one pass of the loop per byte (R105), then the way out at the terminator (R106) or INPUT_OVERRUN at the
top address (R107). `StaysInRun` keeps, beside the state arrived at, that the run was in progress at every boundary on the way. -/

namespace Sys2Proof.Machine

/-! ### The input string in memory (R45) -/

theorem Memory.bytes_add (m : Memory) (b n k : Nat) : m.bytes b (n + k) = m.bytes b n ++ m.bytes (b + n) k := by
  simp [Memory.bytes, List.range_add, Nat.add_assoc]

theorem Memory.bytes_succ (m : Memory) (b n : Nat) : m.bytes b (n + 1) = m.bytes b n ++ [m.read (b + n)] :=
  m.bytes_add b n 1

theorem Memory.bytes_succ_eq_cons (m : Memory) (b n : Nat) : m.bytes b (n + 1) = m.read b :: m.bytes (b + 1) n := by
  rw [Nat.add_comm n 1]
  exact m.bytes_add b 1 n

theorem Memory.length_bytes (m : Memory) (b n : Nat) : (m.bytes b n).length = n := by
  simp [Memory.bytes]

theorem Memory.forall_mem_bytes {p : Byte → Prop} (m : Memory) (b n : Nat) :
    (∀ ch ∈ m.bytes b n, p ch) ↔ ∀ j < n, p (m.read (b + j)) := by
  simp [Memory.bytes]

/-- The search finds the string that stands before the first 0 of its window. -/
theorem cstrFrom_eq_some_iff (m : Memory) (n b : Nat) (str : List Byte) :
    cstrFrom m n b = some str ↔
      str.length < n ∧ m.bytes b str.length = str ∧ (∀ ch ∈ str, ch ≠ 0#8) ∧ m.read (b + str.length) = 0#8 := by
  induction n generalizing b str with
  | zero => simp [cstrFrom]
  | succ n ih =>
    rw [cstrFrom]
    by_cases hzero : m.read b = 0#8
    · rw [if_pos hzero]
      cases str with
      | nil => simp [Memory.bytes, hzero]
      | cons ch rest =>
        refine iff_of_false (by simp) ?_
        rintro ⟨-, hbytes, hne, -⟩
        rw [List.length_cons, Memory.bytes_succ_eq_cons, hzero] at hbytes
        exact hne ch List.mem_cons_self (List.cons.inj hbytes).1.symm
    · rw [if_neg hzero]
      cases str with
      | nil => simp [hzero]
      | cons ch rest =>
        have hnext : b + (rest.length + 1) = b + 1 + rest.length := by omega
        simp only [List.length_cons, Memory.bytes_succ_eq_cons, hnext, Option.map_eq_some_iff, ih, List.cons.injEq,
          List.forall_mem_cons]
        constructor
        · rintro ⟨_, ⟨hlen, hbytes, hne, hend⟩, rfl, rfl⟩
          exact ⟨by omega, ⟨rfl, hbytes⟩, ⟨hzero, hne⟩, hend⟩
        · rintro ⟨hlen, ⟨rfl, hbytes⟩, ⟨-, hne⟩, hend⟩
          exact ⟨rest, ⟨by omega, hbytes, hne, hend⟩, rfl, rfl⟩

/-- The search fails exactly when its window holds no 0. -/
theorem cstrFrom_eq_none_iff (m : Memory) (n b : Nat) : cstrFrom m n b = none ↔ ∀ j < n, m.read (b + j) ≠ 0#8 := by
  induction n generalizing b with
  | zero => simp [cstrFrom]
  | succ n ih =>
    rw [cstrFrom, Nat.forall_lt_succ_left]
    by_cases hzero : m.read b = 0#8
    · simp [hzero]
    · simp [hzero, ih, Nat.add_assoc, Nat.add_comm 1]

/-! ### djb2 and the hash (R108, R109) -/

theorem djb2_append_singleton (str : List Byte) (ch : Byte) :
    djb2 (str ++ [ch]) = djb2 str * 33#64 + BitVec.ofNat 64 ch.toNat := by
  simp [djb2]

/-- `djb2` in an accumulator of any width (R113). -/
def djb2AtWidth (width : Nat) (str : List Byte) : BitVec width :=
  str.foldl (fun h ch => h * 33 + BitVec.ofNat width ch.toNat) (BitVec.ofNat width 5381)

theorem djb2AtWidth_64 (str : List Byte) : djb2AtWidth 64 str = djb2 str := rfl

/-- Cutting the accumulator down to 8 bits commutes with each multiply-add, so with all of them. -/
theorem setWidth_djb2AtWidth {width : Nat} (hwidth : 8 ≤ width) (str : List Byte) :
    (djb2AtWidth width str).setWidth 8 = djb2AtWidth 8 str := by
  have hseed : BitVec.ofNat 8 5381 = (BitVec.ofNat width 5381).setWidth 8 := by
    simp [BitVec.setWidth_ofNat_of_le hwidth]
  rw [djb2AtWidth, djb2AtWidth, hseed]
  refine (List.foldl_hom (BitVec.setWidth 8) fun h ch => ?_).symm
  simp [BitVec.setWidth_add _ _ hwidth, BitVec.setWidth_mul _ _ hwidth, BitVec.setWidth_ofNat_of_le hwidth,
    BitVec.setWidth_setWidth_of_le ch hwidth]

theorem stringHash_toNat (str : List Byte) : (stringHash str).toNat = (djb2 str).toNat % 256 := by
  simp [stringHash]

/-! ### The events of a boundary (R103) -/

theorem step_of_no_fill {s : State} (h : s.hostInput.fill = []) : step s = boundary s.hostInput s.dropInput :=
  step_of_hostFill (by rw [h, hostFill_nil])

/-- With BUSY = 0, a step without reset, host write and START event only consumes the boundary's input. -/
theorem step_of_nothing {s : State} (hfill : s.hostInput.fill = []) (hrst : s.hostInput.rst = false)
    (hbusy : s.status.busy = false) (h : s.status.fault = true ∨ s.hostInput.start = false) : step s = .next s.dropInput := by
  rw [step_of_no_fill hfill, boundary]
  obtain h | h := h <;> simp [hrst, hbusy, h]

/-- With PTR an AW-bit value the sequencer step always gives a next state: an illegal word is a fault of the core. -/
theorem sequencerStep_next {s : State} (hptr : s.ptr < 2 ^ s.aw) : ∃ t, sequencerStep s = .next t := by
  cases hword : decode s.fetch with
  | error e => exact ⟨_, sequencerStep_of_decode_error hword⟩
  | ok i =>
    rw [sequencerStep_of_decode_ok hword]
    obtain hnext | ⟨-, hout⟩ := exec_next_or_ldb i s
    · exact hnext
    · exact absurd hptr (Nat.not_lt.2 hout)

/-! ### Runs in progress -/

/-- `n` steps lead from `s` to `t`, and STATUS is RUN after each of them. -/
structure StaysInRun (n : Nat) (s t : State) : Prop where
  arrives : runSteps n s = .next t
  inProgress : ∀ k, 1 ≤ k → k ≤ n → ∃ u, runSteps k s = .next u ∧ u.status.word = 0b00001#5

theorem runSteps_one (s : State) : runSteps 1 s = step s := by
  simp only [runSteps, Host.Core.run, Sys2Proof.core]
  cases step s <;> rfl

theorem StaysInRun.of_step {s t : State} (h : step s = .next t) (ht : t.status = Status.run) : StaysInRun 1 s t where
  arrives := (runSteps_one s).trans h
  inProgress k hlo hhi := by
    obtain rfl : k = 1 := by omega
    exact ⟨t, (runSteps_one s).trans h, by rw [ht, Status.word_run]⟩

theorem StaysInRun.trans {m n : Nat} {s t u : State} (h : StaysInRun m s t) (h' : StaysInRun n t u) :
    StaysInRun (m + n) s u where
  arrives := (runSteps_add m n h.arrives).trans h'.arrives
  inProgress k hlo hhi := by
    by_cases hk : k ≤ m
    · exact h.inProgress k hlo hk
    · obtain ⟨j, rfl⟩ : ∃ j, k = m + j := ⟨k - m, by omega⟩
      rw [runSteps_add m j h.arrives]
      exact h'.inProgress j (by omega) (by omega)

theorem StaysInRun.runSteps_succ {n : Nat} {s t u : State} (h : StaysInRun n s t) (hstep : step t = .next u) :
    runSteps (n + 1) s = .next u := by
  rw [runSteps_add n 1 h.arrives, runSteps_one, hstep]

/-- The state of a run that started from `s`, at the boundary `k` steps after it. -/
def State.inRun (s : State) (k : Nat) (pc : Nibble) (acc : Word) (c : Byte) (ptr : Nat) : State :=
  { s with pc := pc, acc := acc, c := c, ptr := ptr, status := Status.run, inputs := s.inputs.drop k }

theorem State.inRun_dropInput (s : State) (k : Nat) (pc : Nibble) (acc : Word) (c : Byte) (ptr : Nat) :
    (s.inRun k pc acc c ptr).dropInput = s.inRun (k + 1) pc acc c ptr := by
  simp [State.inRun, State.dropInput]

/-- A host that is quiet for `n` boundaries is quiet at each of them. -/
theorem State.inRun_quiet {s : State} {n k : Nat} (h : s.quietFor n = true) (hk : k < n) (pc : Nibble) (acc : Word) (c : Byte)
    (ptr : Nat) : (s.inRun k pc acc c ptr).hostInput.quiet = true := by
  simp only [State.hostInput, State.inRun, List.headD_eq_head?_getD, List.head?_drop]
  cases hin : s.inputs[k]? with
  | none => rfl
  | some inp =>
    have hmem : inp ∈ s.inputs.take n := List.mem_of_getElem? ((List.getElem?_take_of_lt hk).trans hin)
    exact List.all_eq_true.1 h inp hmem

section
variable {s : State} {b n k : Nat} {acc : Word} {c : Byte} {ptr : Nat}

/-- In a canonical run a step performs the operation that the canonical image has at PC. -/
theorem step_inRun (h : s.StartsCanonicalRun b n) (hk : k ≤ n) {pc : Nibble} {i : Instr}
    (hi : decode (Config.canonicalImage[pc.toNat]'pc.isLt) = .ok i) :
    step (s.inRun k pc acc c ptr) = exec i (s.inRun (k + 1) pc acc c ptr) := by
  obtain ⟨himage, -, -, -, -, hquiet⟩ := h
  rw [step_of_running ⟨rfl, State.inRun_quiet hquiet (Nat.lt_succ_of_le hk) pc acc c ptr⟩, State.inRun_dropInput]
  refine sequencerStep_of_decode_ok (Eq.trans ?_ hi)
  simp [State.fetch, State.inRun, himage]

/-- The START event, with `base = b` on its port. -/
theorem staysInRun_start (h : s.StartsCanonicalRun b n) : StaysInRun 1 s (s.inRun 1 0#4 s.acc s.c b) := by
  obtain ⟨-, hstatus, hstart, hbase, hb, hquiet⟩ := h
  have hfields : s.status.busy = false ∧ s.status.fault = false ∧ s.status.started = Status.run := by
    obtain hs | hs := hstatus <;> rw [hs] <;> exact ⟨rfl, rfl, rfl⟩
  obtain ⟨hbusy, hfault, hrun⟩ := hfields
  refine .of_step ?_ rfl
  rw [step_of_start hbusy hfault (quietFor_succ s n hquiet).1 hstart, hbase, startEvent,
    setPtr_of_lt (s.dropInput.setPc 0#4) b hb]
  simp [State.setStatus, State.setPc, State.dropInput, State.inRun, hrun]

/-- An operation that ends with `next` goes on to the address after its own. -/
theorem staysInRun_next (h : s.StartsCanonicalRun b n) (hk : k ≤ n) {pc : Nibble} {i : Instr} {w : State}
    (hi : decode (Config.canonicalImage[pc.toNat]'pc.isLt) = .ok i) (hpc : pc ≠ 15#4)
    (hexec : exec i (s.inRun (k + 1) pc acc c ptr) = advance (s.inRun (k + 1) pc acc c ptr) w) (hw : w.status = Status.run) :
    StaysInRun 1 (s.inRun k pc acc c ptr) (w.setPc (pc + 1#4)) :=
  .of_step ((step_inRun h hk hi).trans (hexec.trans (advance_of_ne _ w hpc))) hw

theorem staysInRun_init (h : s.StartsCanonicalRun b n) (hk : k ≤ n) :
    StaysInRun 1 (s.inRun k 0#4 acc c ptr) (s.inRun (k + 1) 1#4 seed c ptr) :=
  staysInRun_next (i := .init) (w := s.inRun (k + 1) 0#4 seed c ptr) h hk rfl (by decide) rfl rfl

theorem staysInRun_ldb (h : s.StartsCanonicalRun b n) (hk : k ≤ n) (hptr : ptr < 2 ^ s.aw) :
    StaysInRun 1 (s.inRun k 1#4 acc c ptr) (s.inRun (k + 1) 2#4 acc (s.mem.read ptr) ptr) :=
  staysInRun_next h hk rfl (by decide) (exec_ldb_of_lt hptr) rfl

theorem staysInRun_bz_next (h : s.StartsCanonicalRun b n) (hk : k ≤ n) (hc : c ≠ 0#8) :
    StaysInRun 1 (s.inRun k 2#4 acc c ptr) (s.inRun (k + 1) 3#4 acc c ptr) :=
  staysInRun_next h hk rfl (by decide) (exec_bz_of_ne_zero 5#4 hc) rfl

theorem staysInRun_bz_taken (h : s.StartsCanonicalRun b n) (hk : k ≤ n) (hc : c = 0#8) :
    StaysInRun 1 (s.inRun k 2#4 acc c ptr) (s.inRun (k + 1) 5#4 acc c ptr) :=
  .of_step ((step_inRun h hk rfl).trans (exec_bz_of_zero 5#4 hc)) rfl

theorem staysInRun_mad (h : s.StartsCanonicalRun b n) (hk : k ≤ n) (hptr : ptr + 1 < 2 ^ s.aw) :
    StaysInRun 1 (s.inRun k 3#4 acc c ptr) (s.inRun (k + 1) 4#4 (acc * 33#64 + BitVec.ofNat 64 c.toNat) c (ptr + 1)) := by
  have hbelow : ptr < 2 ^ s.aw := by omega
  have htop : ptr ≠ 2 ^ s.aw - 1 := by omega
  exact staysInRun_next h hk rfl (by decide) (exec_mad_of_below_top hbelow htop) rfl

theorem staysInRun_br (h : s.StartsCanonicalRun b n) (hk : k ≤ n) :
    StaysInRun 1 (s.inRun k 4#4 acc c ptr) (s.inRun (k + 1) 1#4 acc c ptr) :=
  .of_step (step_inRun (i := .br 1#4) h hk rfl) rfl

/-- FOLD i stands at address 4 + i of the canonical image (R100). -/
theorem canonicalImage_fold : ∀ i : Nibble, 1 ≤ i.toNat → i.toNat ≤ 7 →
    4#4 + i ≠ 15#4 ∧ decode (Config.canonicalImage[(4#4 + i).toNat]'(4#4 + i).isLt) = .ok (.fold i) := by
  decide

theorem staysInRun_fold (h : s.StartsCanonicalRun b n) (hk : k ≤ n) (i : Nibble) (hi : 1 ≤ i.toNat ∧ i.toNat ≤ 7) :
    StaysInRun 1 (s.inRun k (4#4 + i) acc c ptr) (s.inRun (k + 1) (4#4 + i + 1#4) (foldStage i acc) c ptr) := by
  obtain ⟨hpc, hdecode⟩ := canonicalImage_fold i hi.1 hi.2
  exact staysInRun_next h hk hdecode hpc (exec_fold_of_legal hi.1 hi.2 _) rfl

theorem staysInRun_fin (h : s.StartsCanonicalRun b n) (hk : k ≤ n) :
    StaysInRun 1 (s.inRun k 12#4 acc c ptr) ((s.setResult (finalMask acc)).inRun (k + 1) 13#4 acc c ptr) :=
  staysInRun_next (i := .fin) (w := (s.setResult (finalMask acc)).inRun (k + 1) 12#4 acc c ptr) h hk rfl (by decide) rfl rfl

/-- One pass of the loop, on a byte that is not the terminator and not at the top address. -/
theorem staysInRun_pass (h : s.StartsCanonicalRun b n) (hk : k + 3 ≤ n) (hne : s.mem.read ptr ≠ 0#8)
    (hptr : ptr + 1 < 2 ^ s.aw) :
    StaysInRun 4 (s.inRun k 1#4 acc c ptr)
      (s.inRun (k + 4) 1#4 (acc * 33#64 + BitVec.ofNat 64 (s.mem.read ptr).toNat) (s.mem.read ptr) (ptr + 1)) :=
  (staysInRun_ldb h (by omega) (by omega)).trans <| (staysInRun_bz_next h (by omega) hne).trans <|
    (staysInRun_mad h (by omega) hptr).trans <| staysInRun_br h (by omega)

/-- FOLD 1 to FOLD 7 leave the low byte of ACC. -/
theorem staysInRun_stages (h : s.StartsCanonicalRun b n) (hk : k + 6 ≤ n) :
    StaysInRun 7 (s.inRun k 5#4 acc c ptr) (s.inRun (k + 7) 12#4 (acc &&& 0xFF#64) c ptr) := by
  have stage (j : Nat) (hj : j ≤ 6) (i : Nibble) (hi : 1 ≤ i.toNat ∧ i.toNat ≤ 7) (a : Word) :
      StaysInRun 1 (s.inRun (k + j) (4#4 + i) a c ptr) (s.inRun (k + (j + 1)) (4#4 + i + 1#4) (foldStage i a) c ptr) :=
    staysInRun_fold h (by omega) i hi
  rw [← foldl_seven_stages acc]
  exact (stage 0 (by decide) 1#4 (by decide) _).trans <| (stage 1 (by decide) 2#4 (by decide) _).trans <|
    (stage 2 (by decide) 3#4 (by decide) _).trans <| (stage 3 (by decide) 4#4 (by decide) _).trans <|
    (stage 4 (by decide) 5#4 (by decide) _).trans <| (stage 5 (by decide) 6#4 (by decide) _).trans <|
    stage 6 (by decide) 7#4 (by decide) _

/-- The loop invariant of R105: at the arrival at address 1 after `m` passes, PTR has moved on by `m` and ACC is `djb2` of the
`m` bytes from `b` on. -/
theorem staysInRun_to_loopHead (h : s.StartsCanonicalRun b n) (m : Nat) (hn : 4 * m + 1 ≤ n) (hm : b + m < 2 ^ s.aw)
    (hne : ∀ j < m, s.mem.read (b + j) ≠ 0#8) :
    ∃ c, StaysInRun (4 * m + 2) s (s.inRun (4 * m + 2) 1#4 (djb2 (s.mem.bytes b m)) c (b + m)) := by
  induction m with
  | zero => exact ⟨s.c, (staysInRun_start h).trans (staysInRun_init h (by omega))⟩
  | succ m ih =>
    obtain ⟨c, harrives⟩ := ih (by omega) (by omega) fun j hj => hne j (by omega)
    rw [Memory.bytes_succ, djb2_append_singleton]
    exact ⟨s.mem.read (b + m), harrives.trans (staysInRun_pass h (by omega) (hne m (by omega)) hm)⟩

/-- The way out of the loop at the terminator, up to HALT (R106). -/
theorem staysInRun_exit (h : s.StartsCanonicalRun b n) (hk : k + 9 ≤ n) (hptr : ptr < 2 ^ s.aw)
    (hzero : s.mem.read ptr = 0#8) :
    StaysInRun 10 (s.inRun k 1#4 acc c ptr)
      ((s.setResult (finalMask (acc &&& 0xFF#64))).inRun (k + 10) 13#4 (acc &&& 0xFF#64) 0#8 ptr) := by
  have hldb := staysInRun_ldb (acc := acc) (c := c) h (k := k) (by omega) hptr
  rw [hzero] at hldb
  exact hldb.trans <| (staysInRun_bz_taken h (by omega) rfl).trans <| (staysInRun_stages h (by omega)).trans <|
    staysInRun_fin h (by omega)

/-- HALT ends the run normally. -/
theorem step_inRun_halt (h : s.StartsCanonicalRun b n) (hk : k ≤ n) :
    step (s.inRun k 13#4 acc c ptr) = .next ((s.inRun (k + 1) 13#4 acc c ptr).setStatus Status.ended) :=
  step_inRun (i := .halt) h hk rfl

/-- MAD at the top address ends the run in INPUT_OVERRUN. -/
theorem step_inRun_mad_of_top (h : s.StartsCanonicalRun b n) (hk : k ≤ n) (hptr : ptr = 2 ^ s.aw - 1) :
    step (s.inRun k 3#4 acc c ptr) =
      .next ((s.inRun (k + 1) 3#4 acc c ptr).setStatus (Status.run.faulted .inputOverrun)) :=
  (step_inRun h hk rfl).trans (exec_mad_of_top hptr)

end

/-! ### The obligations -/

/-- Settles O46: the loop invariant at the terminator, then the way out. FIN delivers the low byte, which the stages keep. -/
theorem canonicalRunComputesTheHash : Obligations.CanonicalRunComputesTheHash := by
  unfold Obligations.CanonicalRunComputesTheHash
  intro s b str hstr h
  obtain ⟨hlen, hbytes, hne, hzero⟩ := (cstrFrom_eq_some_iff s.mem _ b str).1 hstr
  have hptr : b + str.length < 2 ^ s.aw := by omega
  have hbody : ∀ j < str.length, s.mem.read (b + j) ≠ 0#8 := by
    rw [← hbytes] at hne
    exact (s.mem.forall_mem_bytes b str.length).1 hne
  obtain ⟨c, hloop⟩ := staysInRun_to_loopHead h str.length (by omega) hptr hbody
  rw [hbytes] at hloop
  have hrun := hloop.trans (staysInRun_exit h (by omega) hptr hzero)
  have hacc : djb2 str &&& 0xFF#64 = BitVec.ofNat 64 (stringHash str).toNat := by
    rw [and_0xFF_eq_ofNat, stringHash_toNat]
  have hresult : finalMask (djb2 str &&& 0xFF#64) = stringHash str := by
    rw [← foldl_seven_stages, (postProcessDoesNotChangeTheResult (djb2 str)).1, finalMask_eq_ofNat, stringHash]
  rw [hresult, hacc] at hrun
  exact ⟨hrun.inProgress, hrun.runSteps_succ (step_inRun_halt (s := s.setResult _) h (by omega))⟩

/-- Settles O47: no byte up to the one below the top address ends the loop, and at the top address BZ goes on to MAD. -/
theorem unterminatedRunEndsInInputOverrun : Obligations.UnterminatedRunEndsInInputOverrun := by
  unfold Obligations.UnterminatedRunEndsInInputOverrun
  intro s b hstr h
  have hne := (cstrFrom_eq_none_iff s.mem _ b).1 hstr
  have ⟨_, _, _, _, hb, _⟩ := h
  generalize hm : 2 ^ s.aw - 1 - b = m at h ⊢
  have htop : b + m = 2 ^ s.aw - 1 := by omega
  obtain ⟨c, hloop⟩ := staysInRun_to_loopHead h m (by omega) (by omega) fun j hj => hne j (by omega)
  have hrun := hloop.trans <| (staysInRun_ldb h (by omega) (by omega)).trans <|
    staysInRun_bz_next h (by omega) (hne m (by omega))
  rw [htop] at hrun
  exact ⟨hrun.inProgress, hrun.runSteps_succ (step_inRun_mad_of_top h (by omega) rfl)⟩

/-- What O46 says about RESULT and STATUS at the end. -/
theorem canonicalRun_delivers_hash {s : State} {b : Nat} {str : List Byte} (hstr : s.cstr b = some str)
    (h : s.StartsCanonicalRun b (4 * str.length + 12)) :
    ∃ t, runSteps (4 * str.length + 13) s = .next t ∧ t.result = stringHash str ∧ t.status.word = 0b00010#5 :=
  ⟨_, (canonicalRunComputesTheHash s b str hstr h).2, rfl, Status.word_ended⟩

/-- Settles O50: both runs deliver the hash of the one string. -/
theorem resultDependsOnTheInputStringAlone : Obligations.ResultDependsOnTheInputStringAlone := by
  unfold Obligations.ResultDependsOnTheInputStringAlone
  intro s u b d str hs hu hruns hrunu
  obtain ⟨t, ht, htresult, htstatus⟩ := canonicalRun_delivers_hash hs hruns
  obtain ⟨v, hv, hvresult, hvstatus⟩ := canonicalRun_delivers_hash hu hrunu
  exact ⟨t, v, ht, hv, htresult.trans hvresult.symm, htstatus, hvstatus⟩

/-- Settles O51: the search for the input string stops at the embedded 0. -/
theorem embeddedZeroTruncatesTheInput : Obligations.EmbeddedZeroTruncatesTheInput := by
  unfold Obligations.EmbeddedZeroTruncatesTheInput
  intro s b str rest hne htop hbytes h
  rw [Nat.add_assoc, Nat.add_comm 1, Memory.bytes_add, Memory.bytes_succ_eq_cons] at hbytes
  obtain ⟨hstring, hrest⟩ := List.append_inj hbytes (Memory.length_bytes _ _ _)
  have hzero : s.mem.read (b + str.length) = 0#8 := (List.cons.inj hrest).1
  have hstr : s.cstr b = some str :=
    (cstrFrom_eq_some_iff s.mem _ b str).2 ⟨by omega, hstring, hne, hzero⟩
  exact canonicalRun_delivers_hash hstr h

/-- Settles O52: cutting a wider accumulator down to 8 bits commutes with the multiply-add, so every width computes the hash. -/
theorem hashDoesNotDependOnTheWidth : Obligations.HashDoesNotDependOnTheWidth := by
  unfold Obligations.HashDoesNotDependOnTheWidth
  refine ⟨fun str => Nat.le_of_lt_succ (stringHash str).isLt, fun width str hwidth => ?_⟩
  calc (djb2AtWidth width str).toNat % 256
    _ = ((djb2AtWidth width str).setWidth 8).toNat := (BitVec.toNat_setWidth 8 _).symm
    _ = ((djb2AtWidth 64 str).setWidth 8).toNat := by rw [setWidth_djb2AtWidth hwidth, setWidth_djb2AtWidth (by decide)]
    _ = (stringHash str).toNat := by rw [BitVec.toNat_setWidth, djb2AtWidth_64, stringHash_toNat]

/-- Settles O54: the values by computing them; a first byte 0 makes the input string empty. -/
theorem pinnedHashValues : Obligations.PinnedHashValues := by
  unfold Obligations.PinnedHashValues
  refine ⟨⟨by decide, rfl, by decide, by decide⟩, fun s b hzero h => ?run⟩
  have hstr : s.cstr b = some [] := by
    obtain ⟨-, -, -, -, hb, -⟩ := h
    exact (cstrFrom_eq_some_iff s.mem _ b []).2 ⟨Nat.sub_pos_of_lt hb, rfl, by simp, hzero⟩
  exact canonicalRun_delivers_hash hstr h

/-- Settles O9: the image is the one `State.reset` writes, each word decodes as the table says, and no step writes PROG (R44). -/
theorem controlStoreHoldsTheCanonicalImage : Obligations.ControlStoreHoldsTheCanonicalImage := by
  unfold Obligations.ControlStoreHoldsTheCanonicalImage
  exact ⟨rfl, by decide, fun s t h => (theCoreNeverWritesMemory s t h).1⟩

/-- Settles O10: `start` is looked at only while BUSY = 0 and FAULT = 0; there the step is the START event. -/
theorem startEventIsTakenOnlyWhenIdleOrEnded : Obligations.StartEventIsTakenOnlyWhenIdleOrEnded := by
  unfold Obligations.StartEventIsTakenOnlyWhenIdleOrEnded
  refine ⟨fun s hquiet hbusy hfault hstart hbase => ?start, fun s hquiet hbusy hfault => ?faulted,
    fun s p q later hbusy hp hq => ?running⟩
  case start =>
    rw [step_of_start hbusy hfault hquiet hstart, startEvent, setPtr_of_lt (s.dropInput.setPc 0#4) _ hbase]
    rfl
  case faulted =>
    obtain ⟨hrst, hfill⟩ := (quiet_iff _).1 hquiet
    exact step_of_nothing hfill hrst hbusy (.inl hfault)
  case running =>
    have hstep (inp : HostInput) (hinp : inp.quiet = true) :
        step { s with inputs := inp :: later } = sequencerStep { s with inputs := later } :=
      step_of_running ⟨hbusy, hinp⟩
    exact (hstep p hp).trans (hstep q hq).symm

/-- Settles O11: with nothing to write first a step is its boundary, whose tests come in this order; of the operations only LDB
can stop, at an address that PTR does not reach. -/
theorem boundaryEventsComeInTheirOrder : Obligations.BoundaryEventsComeInTheirOrder := by
  unfold Obligations.BoundaryEventsComeInTheirOrder
  refine ⟨fun s hfill => ⟨fun hrst => ?reset, fun hrst hbusy => ?running, fun hrst hbusy hfault hstart => ?start,
    fun hrst hbusy => step_of_nothing hfill hrst hbusy⟩, fun s ⟨_, hptr, _⟩ => sequencerStep_next hptr⟩
  case reset => rw [step_of_no_fill hfill, boundary, if_pos hrst]
  case running => exact step_of_running ⟨hbusy, (quiet_iff _).2 ⟨hrst, hfill⟩⟩
  case start => exact step_of_start hbusy hfault ((quiet_iff _).2 ⟨hrst, hfill⟩) hstart

end Sys2Proof.Machine
end

section
/-! PROOFS of the family 60_exceptions.md. The cause that a sequencer step raises is a function of the state before it
(`State.raisedCause`: the table of R121 in the order of R123), and what the step does with it is said once
(`sequencerStep_faultOutcome`). A core that has faulted stands still (`runSteps_of_faulted`). -/

namespace Sys2Proof.Machine

/-! ### The cause of a step (R121, R123) -/

/-- The cause that `next` raises, if any. -/
def State.nextCause (s : State) : Option FaultCause := if s.pc = 15#4 then some .pcOverrun else none

/-- The cause that performing an operation of the core raises, if any. -/
def State.operationCause (s : State) (i : Instr) : Option FaultCause :=
  match i with
  | .init | .ldb | .fold _ | .fin => s.nextCause
  | .mad => if s.ptr = s.topAddress then some .inputOverrun else s.nextCause
  | .bz _ => if s.c = 0#8 then none else s.nextCause
  | .br _ | .halt => none

/-- The cause that the sequencer step from `s` raises, if any. -/
def State.raisedCause (s : State) : Option FaultCause :=
  match decode s.fetch with
  | .ok i => s.operationCause i
  | .error _ => some .illegalOp

theorem State.nextCause_eq_some_iff (s : State) (cause : FaultCause) :
    s.nextCause = some cause ↔ s.pc = 15#4 ∧ cause = .pcOverrun := by
  unfold State.nextCause
  split <;> simp [*, eq_comm]

theorem State.raisedCause_eq_illegalOp_iff (s : State) :
    s.raisedCause = some .illegalOp ↔ ∃ e, decode s.fetch = .error e := by
  unfold State.raisedCause
  cases decode s.fetch with
  | error e => simp
  | ok i => cases i <;> simp [State.operationCause, State.nextCause_eq_some_iff, ite_eq_iff]

theorem State.raisedCause_eq_inputOverrun_iff (s : State) :
    s.raisedCause = some .inputOverrun ↔ decode s.fetch = .ok .mad ∧ s.ptr = s.topAddress := by
  unfold State.raisedCause
  cases decode s.fetch with
  | error e => simp
  | ok i => cases i <;> simp [State.operationCause, State.nextCause_eq_some_iff, ite_eq_iff]

/-- The operations that can reach `next` are those of the table's last row. -/
theorem State.raisedCause_eq_pcOverrun_iff (s : State) :
    s.raisedCause = some .pcOverrun ↔ s.pc = 15#4 ∧
      (decode s.fetch = .ok .init ∨ decode s.fetch = .ok .ldb ∨ (decode s.fetch = .ok .mad ∧ s.ptr ≠ s.topAddress) ∨
        (∃ k, decode s.fetch = .ok (.fold k)) ∨ decode s.fetch = .ok .fin ∨
        (s.c ≠ 0#8 ∧ ∃ a, decode s.fetch = .ok (.bz a))) := by
  unfold State.raisedCause
  cases decode s.fetch with
  | error e => simp
  | ok i => cases i <;> simp [State.operationCause, State.nextCause_eq_some_iff, ite_eq_iff, and_comm]

theorem FaultCause.code_injective : Function.Injective FaultCause.code := by
  intro a b
  cases a <;> cases b <;> decide

theorem FaultCause.code_ne_zero (cause : FaultCause) : cause.code ≠ 0#2 := by
  cases cause <;> decide

/-! ### What a sequencer step does with its cause (R124) -/

/-- A raised cause is written to STATUS and nothing else is (R124); with none raised FAULT and CAUSE stay. -/
def FaultOutcome (raised : Option FaultCause) (s t : State) : Prop :=
  match raised with
  | some cause => t = s.setStatus (s.status.faulted cause)
  | none => t.status.fault = s.status.fault ∧ t.status.cause = s.status.cause

theorem EndsWith.faultOutcome {s w t : State} (h : EndsWith s w t) (hw : w.status = s.status) :
    FaultOutcome s.nextCause s t := by
  obtain ⟨hpc, h⟩ | ⟨hpc, rfl⟩ := h
  · rw [State.nextCause, if_pos hpc]
    exact h
  · rw [State.nextCause, if_neg hpc]
    exact ⟨congrArg Status.fault hw, congrArg Status.cause hw⟩

theorem exec_faultOutcome {i : Instr} {s t : State} (hwf : i.wellFormed = true) (h : exec i s = .next t) :
    FaultOutcome (s.operationCause i) s t := by
  cases i with
  | init => exact (execInit_cases h).faultOutcome rfl
  | ldb => exact (execLdb_cases h).2.faultOutcome rfl
  | bz a =>
    obtain ⟨hc, rfl⟩ | ⟨hc, h⟩ := execBz_cases h
    · rw [State.operationCause, if_pos hc]
      exact ⟨rfl, rfl⟩
    · rw [State.operationCause, if_neg hc]
      exact h.faultOutcome rfl
  | mad =>
    obtain ⟨htop, h⟩ | ⟨htop, h⟩ := execMad_cases h
    · rw [State.operationCause, if_pos htop]
      exact h
    · rw [State.operationCause, if_neg htop]
      exact h.faultOutcome rfl
  | br a => rw [execBr_cases h]; exact ⟨rfl, rfl⟩
  | fold k =>
    obtain ⟨hk, -⟩ | ⟨-, h⟩ := execFold_cases h
    · exact absurd (hk.symm.trans hwf) (by decide)
    · exact h.faultOutcome rfl
  | fin => exact (execFin_cases h).faultOutcome rfl
  | halt => rw [execHalt_cases h]; exact ⟨rfl, rfl⟩

theorem sequencerStep_faultOutcome {s t : State} (h : sequencerStep s = .next t) : FaultOutcome s.raisedCause s t := by
  obtain ⟨i, hi, h⟩ | ⟨e, he, h⟩ := sequencerStep_cases h
  · obtain ⟨-, -, hwf⟩ := (decode_ok_iff _ _).1 hi
    rw [State.raisedCause, hi]
    exact exec_faultOutcome hwf h
  · rw [State.raisedCause, he]
    exact h

section
variable {raised : Option FaultCause} {s t : State}

theorem FaultOutcome.entry_of_fault_set (h : FaultOutcome raised s t) (hs : s.status.fault = false)
    (ht : t.status.fault = true) : ∃ cause, t = s.setStatus (s.status.faulted cause) := by
  cases raised with
  | none => exact absurd (ht.symm.trans (h.1.trans hs)) (by decide)
  | some cause => exact ⟨cause, h⟩

/-- From RUN, where FAULT and CAUSE are 0, CAUSE is 0 after the step exactly when FAULT is. -/
theorem FaultOutcome.cause_eq_zero_iff (h : FaultOutcome raised s t) (hs : s.status = Status.run) :
    t.status.cause = 0#2 ↔ t.status.fault = false := by
  cases raised with
  | none =>
    obtain ⟨hfault, hcause⟩ := h
    rw [hfault, hcause, hs]
    decide
  | some cause =>
    obtain rfl := h
    exact iff_of_false cause.code_ne_zero (by simp)

/-- From RUN the code in CAUSE after the step is that of the cause raised. -/
theorem FaultOutcome.cause_eq_code_iff (h : FaultOutcome raised s t) (hs : s.status = Status.run) (cause : FaultCause) :
    t.status.cause = cause.code ↔ raised = some cause := by
  cases raised with
  | none =>
    obtain ⟨-, hcause⟩ := h
    rw [hcause, hs]
    exact iff_of_false cause.code_ne_zero.symm (by simp)
  | some raised =>
    obtain rfl := h
    simp [FaultCause.code_injective.eq_iff]

end

/-- A step that sets FAULT is a sequencer step that raises a cause: no other event of a boundary sets FAULT (R120). -/
theorem step_of_fault_set {s t : State} (h : step s = .next t) (hs : s.status.fault = false) (ht : t.status.fault = true) :
    ∃ cause, t = s.dropInput.setStatus (s.status.faulted cause) := by
  obtain ⟨u, hfill, hframe, hb⟩ := step_cases h
  have hu : u.status = s.status := by rw [hframe, State.setMem_status, State.dropInput_status]
  have hkept : t.status.fault ≠ s.status.fault := by rw [ht, hs]; decide
  obtain ⟨-, rfl⟩ | ⟨-, hbusy, hseq⟩ | ⟨-, -, -, -, rfl⟩ | ⟨-, -, -, rfl⟩ := boundary_cases hb
  · exact absurd ht Bool.false_ne_true
  · obtain ⟨-, rfl⟩ := hostFill_of_busy (hu ▸ hbusy) hfill
    exact (sequencerStep_faultOutcome hseq).entry_of_fault_set hs ht
  · exact absurd (congrArg Status.fault hu) hkept
  · exact absurd (congrArg Status.fault hu) hkept

/-! ### A faulted core (R125) -/

/-- With BUSY = 0 and FAULT = 1 a step without reset only consumes the boundary's input and lets the host write. -/
theorem step_of_faulted {s t : State} (hbusy : s.status.busy = false) (hfault : s.status.fault = true)
    (hrst : s.hostInput.rst = false) (h : step s = .next t) : t = s.dropInput.setMem t.mem := by
  obtain ⟨u, -, hframe, hb⟩ := step_cases h
  have hu : u.status = s.status := by rw [hframe, State.setMem_status, State.dropInput_status]
  rw [← hu] at hbusy hfault
  obtain ⟨hr, -⟩ | ⟨-, hbusy', -⟩ | ⟨-, -, hfault', -⟩ | ⟨-, -, -, rfl⟩ := boundary_cases hb
  · exact absurd (hrst.symm.trans hr) (by decide)
  · exact absurd (hbusy.symm.trans hbusy') (by decide)
  · exact absurd (hfault.symm.trans hfault') (by decide)
  · exact hframe

theorem runSteps_succ_cases {k : Nat} {s t : State} (h : runSteps (k + 1) s = .next t) :
    ∃ u, step s = .next u ∧ runSteps k u = .next t := by
  simp only [runSteps, Host.Core.run] at h
  split at h
  next u hu => exact ⟨u, hu, h⟩
  next => exact nomatch h
  next => exact nomatch h

/-- A host that does not reset at the next `k + 1` boundaries does not at the coming one and not at the `k` after it. -/
theorem forall_rst_false_succ {s : State} {k : Nat} (h : ∀ inp ∈ s.inputs.take (k + 1), inp.rst = false) :
    s.hostInput.rst = false ∧ ∀ inp ∈ s.inputs.tail.take k, inp.rst = false := by
  cases hin : s.inputs with
  | nil => simp [State.hostInput, hin, HostInput.idle]
  | cons p rest => simpa [State.hostInput, hin] using h

/-- Over any number of boundaries without reset a faulted core stands still: only the input memory and the host's inputs
change. -/
theorem runSteps_of_faulted {k : Nat} {s t : State} (hbusy : s.status.busy = false) (hfault : s.status.fault = true)
    (hrst : ∀ inp ∈ s.inputs.take k, inp.rst = false) (h : runSteps k s = .next t) :
    t = { s with mem := t.mem, inputs := t.inputs } := by
  induction k generalizing s with
  | zero => injection h with h; rw [h]
  | succ k ih =>
    obtain ⟨u, hstep, hrun⟩ := runSteps_succ_cases h
    obtain ⟨hnow, hlater⟩ := forall_rst_false_succ hrst
    have hu := step_of_faulted hbusy hfault hnow hstep
    have hstatus : u.status = s.status := by rw [hu, State.setMem_status, State.dropInput_status]
    have hinputs : u.inputs = s.inputs.tail := by rw [hu, State.setMem_inputs, State.dropInput_inputs]
    have ht := ih (hstatus ▸ hbusy) (hstatus ▸ hfault) (hinputs ▸ hlater) hrun
    calc t = { u with mem := t.mem, inputs := t.inputs } := ht
      _ = { s with mem := t.mem, inputs := t.inputs } := by rw [hu]; rfl

/-! ### The legal values of STATUS (R27) -/

/-- Of the six legal values only RUN has BUSY = 1. -/
theorem Status.eq_run_of_legal {x : Status} (hlegal : x.legal = true) (hbusy : x.busy = true) : x = Status.run := by
  obtain ⟨b, d, f, c⟩ := x
  revert b d f c
  decide

/-- No legal value has FAULT and DONE both 1. -/
theorem Status.done_eq_false_of_legal {x : Status} (hlegal : x.legal = true) (hfault : x.fault = true) : x.done = false := by
  obtain ⟨b, d, f, c⟩ := x
  revert b d f c
  decide

/-! ### The obligations -/

/-- Settles O38: before the step STATUS is RUN, so FAULT and CAUSE after it are those of the cause raised, if any; which cause
that is, the table says. -/
theorem causesAreRaisedExactlyAsTheTableSays : Obligations.CausesAreRaisedExactlyAsTheTableSays := by
  unfold Obligations.CausesAreRaisedExactlyAsTheTableSays
  intro s t ⟨_, _, _, _, hlegal⟩ hrunning h
  have hrun : s.status = Status.run := Status.eq_run_of_legal hlegal hrunning.1
  rw [step_of_running hrunning] at h
  have hout : FaultOutcome s.raisedCause s.dropInput t := sequencerStep_faultOutcome h
  have hcode := hout.cause_eq_code_iff hrun
  exact ⟨hout.cause_eq_zero_iff hrun, (hcode .illegalOp).trans s.raisedCause_eq_illegalOp_iff,
    (hcode .inputOverrun).trans s.raisedCause_eq_inputOverrun_iff,
    (hcode .pcOverrun).trans s.raisedCause_eq_pcOverrun_iff⟩

/-- Settles O39: a step that sets FAULT is the entry of a cause, which writes STATUS alone. -/
theorem faultEntryIsPrecise : Obligations.FaultEntryIsPrecise := by
  unfold Obligations.FaultEntryIsPrecise
  intro s t h hs ht
  obtain ⟨cause, rfl⟩ := step_of_fault_set h hs ht
  exact ⟨rfl, cause.code_ne_zero⟩

/-- Settles O40: a faulted core stands still, and a legal STATUS with FAULT = 1 has DONE = 0. -/
theorem faultIsStickyUntilReset : Obligations.FaultIsStickyUntilReset := by
  unfold Obligations.FaultIsStickyUntilReset
  intro k s t hbusy hfault hrst h
  rw [runSteps_of_faulted hbusy hfault hrst h]
  exact ⟨rfl, rfl, rfl, rfl, rfl, rfl, fun hlegal => Status.done_eq_false_of_legal hlegal hfault⟩

end Sys2Proof.Machine
end

section
/-! PROOFS of the family 70_reset_and_hazards.md. Reset is the first event that a boundary tests
(`boundaryEventsComeInTheirOrder`). Without it a core with FAULT = 1 stands still (`step_of_faulted`), because a legal STATUS
with FAULT = 1 has BUSY = 0. -/

namespace Sys2Proof.Machine

/-- No legal value has FAULT and BUSY both 1: of the legal values only RUN has BUSY = 1. -/
theorem Status.busy_eq_false_of_legal {x : Status} (hlegal : x.legal = true) (hfault : x.fault = true) : x.busy = false := by
  refine Bool.eq_false_of_not_eq_true fun hbusy => ?_
  rw [Status.eq_run_of_legal hlegal hbusy] at hfault
  exact absurd hfault (by decide)

/-- Settles O7: with rst = 1 the step is the reset event, whatever else the state and the ports hold; without it a faulted core
keeps STATUS. -/
theorem resetZeroesEveryRegister : Obligations.ResetZeroesEveryRegister := by
  unfold Obligations.ResetZeroesEveryRegister
  refine ⟨fun s hrst hfill => ?reset, fun s t hrst hlegal hfault h => ?keep⟩
  case reset =>
    obtain ⟨hreset, -⟩ := boundaryEventsComeInTheirOrder.1 s hfill
    exact hreset hrst
  case keep =>
    have hbusy : s.status.busy = false := Status.busy_eq_false_of_legal hlegal hfault
    rw [step_of_faulted hbusy hfault hrst h]
    exact ⟨hfault, rfl⟩

end Sys2Proof.Machine
end

section
/-! PROOFS of the statements that cut across the families. An operation enters a fault or makes the writes of its row of R32
(`exec_cases`): frames, the writers of the registers and the invariant are read off from that. The value in ACC is the unreduced
one modulo `2^64` (`foldl_multiplyAdd_toNat`). `StepsReading` follows a canonical run with the addresses it reads. -/

namespace Sys2Proof.Machine

/-! ### Encoding (R56 to R59, R62) -/

/-- Settles O1: the control word of an operation carries its two fields, and these are what the decoder reads. -/
theorem decodingAnEncodingGivesTheOperation : Obligations.DecodingAnEncodingGivesTheOperation := by
  unfold Obligations.DecodingAnEncodingGivesTheOperation
  intro i hwf
  exact decode_encode hwf

/-- Settles O2: a word that decodes has the operation's two fields, and they make up the whole word. -/
theorem decodedWordIsItsOperationsOnlyWord : Obligations.DecodedWordIsItsOperationsOnlyWord := by
  unfold Obligations.DecodedWordIsItsOperationsOnlyWord
  intro w i hw
  obtain ⟨hop, harg, hwf⟩ := (decode_ok_iff w i).1 hw
  exact ⟨hwf, encode_of_fields hop harg⟩

/-- What assembles to the control word of a well-formed operation, if at all. -/
theorem decodes_of_map_encode {α ε : Type} {o : Except ε α} {f : α → Instr} {w : Byte}
    (h : o.map (fun x => encode (f x)) = .ok w) (hwf : ∀ x, (f x).wellFormed = true) :
    ∃ i, decode w = .ok i ∧ i.wellFormed = true := by
  cases o with
  | error e => exact nomatch h
  | ok x =>
    injection h with h
    exact ⟨f x, h ▸ decode_encode (hwf x), hwf x⟩

/-- Settles O55: apart from `.word` every operation as written assembles to the word of an operation, and the range that FOLD's
number is checked against is that of the legal stages. -/
theorem assemblerEmitsIllegalWordsOnlyByDirective : Obligations.AssemblerEmitsIllegalWordsOnlyByDirective := by
  unfold Obligations.AssemblerEmitsIllegalWordsOnlyByDirective
  intro labels op w h hword
  cases op with
  | bz a => exact decodes_of_map_encode (f := .bz) h fun _ => rfl
  | br a => exact decodes_of_map_encode (f := .br) h fun _ => rfl
  | fold n =>
    simp only [assembleOp] at h
    split at h
    next hn =>
      injection h with h
      have hwf : (Instr.fold (BitVec.ofNat 4 n)).wellFormed = true :=
        (legalStage_iff _).2 (by rw [BitVec.toNat_ofNat]; omega)
      exact ⟨_, h ▸ decode_encode hwf, hwf⟩
    next => exact nomatch h
  | word v => exact absurd rfl (hword v)
  | init | ldb | mad | fin | halt =>
    injection h with h
    exact ⟨_, h ▸ decode_encode rfl, rfl⟩

/-! ### What an operation can do (R32, R124) -/

/-- The writes of an operation that completes: its row of R32, with PC as the operation leaves it. -/
def State.completed (s : State) : Instr → State
  | .init => (s.setAcc seed).setPc (s.pc + 1#4)
  | .ldb => (s.setC (s.mem.read s.ptr)).setPc (s.pc + 1#4)
  | .bz a => s.setPc (if s.c = 0#8 then a else s.pc + 1#4)
  | .mad => ((s.setAcc (multiplyAdd s.acc s.c)).setPtr (s.ptr + 1)).setPc (s.pc + 1#4)
  | .br a => s.setPc a
  | .fold k => (s.setAcc (foldStage k s.acc)).setPc (s.pc + 1#4)
  | .fin => (s.setResult (finalMask s.acc)).setPc (s.pc + 1#4)
  | .halt => s.setStatus s.status.halted

/-- `t` is the entry of some fault from `s` (R124). -/
def FaultEntry (s t : State) : Prop := ∃ cause : FaultCause, t = s.setStatus (s.status.faulted cause)

theorem EndsWith.faultEntry_or {s w t : State} (h : EndsWith s w t) : FaultEntry s t ∨ t = w.setPc (s.pc + 1#4) := by
  obtain ⟨-, h⟩ | ⟨-, h⟩ := h
  · exact .inl ⟨_, h⟩
  · exact .inr h

/-- An operation enters a fault, which HALT never does, or completes. -/
theorem exec_cases {i : Instr} {s t : State} (h : exec i s = .next t) :
    (i ≠ .halt ∧ FaultEntry s t) ∨ t = s.completed i := by
  cases i with
  | init => exact (execInit_cases h).faultEntry_or.imp_left fun hf => ⟨nofun, hf⟩
  | ldb => exact (execLdb_cases h).2.faultEntry_or.imp_left fun hf => ⟨nofun, hf⟩
  | bz a =>
    obtain ⟨hc, h⟩ | ⟨hc, h⟩ := execBz_cases h
    · exact .inr (by rw [h, State.completed, if_pos hc])
    · rw [State.completed, if_neg hc]
      exact h.faultEntry_or.imp_left fun hf => ⟨nofun, hf⟩
  | mad =>
    obtain ⟨-, h⟩ | ⟨-, h⟩ := execMad_cases h
    · exact .inl ⟨nofun, _, h⟩
    · exact h.faultEntry_or.imp_left fun hf => ⟨nofun, hf⟩
  | br a => exact .inr (execBr_cases h)
  | fold k =>
    obtain ⟨-, h⟩ | ⟨-, h⟩ := execFold_cases h
    · exact .inl ⟨nofun, _, h⟩
    · exact h.faultEntry_or.imp_left fun hf => ⟨nofun, hf⟩
  | fin => exact (execFin_cases h).faultEntry_or.imp_left fun hf => ⟨nofun, hf⟩
  | halt => exact .inr (execHalt_cases h)

/-- An operation leaves PTR or writes a value cut to AW bits (R23). -/
theorem exec_ptr_lt {i : Instr} {s t : State} (h : exec i s = .next t) (hptr : s.ptr < 2 ^ s.aw) : t.ptr < 2 ^ s.aw := by
  obtain ⟨-, cause, rfl⟩ | rfl := exec_cases h
  · exact hptr
  · cases i with
    | mad => exact Nat.mod_lt _ (Nat.two_pow_pos s.aw)
    | _ => exact hptr

/-! ### The invariant (R7, R23, R27, R41) -/

/-- The host's writes keep the states of the hardware: they land at addresses that exist and keep the canonical form. -/
theorem hostFill_keepsInv {fill : List Host.Cell} {s t : State} (h : hostFill fill s = .next t) (hs : s.Inv) : t.Inv := by
  induction fill generalizing s with
  | nil => injection h with h; exact h ▸ hs
  | cons cell rest ih =>
    obtain ⟨a, b⟩ := cell
    obtain ⟨-, ha, hrest⟩ := hostFill_cons h
    obtain ⟨haw, hptr, hwf, hwithin, hlegal⟩ := hs
    exact ih hrest ⟨haw, hptr, s.mem.wf_write a b hwf, s.mem.within_write s.aw a b ha hwithin, hlegal⟩

/-- From RUN a sequencer step leads to a legal STATUS: RUN, DONE, or FAULTED with one of the three causes. -/
theorem Status.legal_of_sequencerMove {y : Status} (h : Status.run.SequencerMove y) : y.legal = true := by
  obtain rfl | rfl | ⟨cause, rfl⟩ := h
  · decide
  · decide
  · cases cause <;> decide

/-- A legal STATUS with BUSY = 0 and FAULT = 0 is IDLE or DONE, and START makes it RUN. -/
theorem Status.started_of_legal {x : Status} (hlegal : x.legal = true) (hbusy : x.busy = false) (hfault : x.fault = false) :
    x.started = Status.run := by
  obtain ⟨b, d, f, c⟩ := x
  revert b d f c
  decide

theorem sequencerStep_ptr_lt {s t : State} (h : sequencerStep s = .next t) (hptr : s.ptr < 2 ^ s.aw) : t.ptr < 2 ^ s.aw := by
  obtain ⟨i, -, hi⟩ | ⟨e, -, rfl⟩ := sequencerStep_cases h
  · exact exec_ptr_lt hi hptr
  · exact hptr

/-- Each event of a boundary keeps the states of the hardware; none of them touches AW or the input memory. -/
theorem boundary_keepsInv {inp : HostInput} {s t : State} (h : boundary inp s = .next t) (hs : s.Inv) : t.Inv := by
  obtain ⟨-, haw, hmem⟩ := boundary_keepsStores h
  obtain ⟨hpos, hptr, hwf, hwithin, hlegal⟩ := hs
  have hevent : t.ptr < 2 ^ s.aw ∧ t.status.legal = true := by
    obtain ⟨-, rfl⟩ | ⟨-, hbusy, hseq⟩ | ⟨-, hbusy, hfault, -, rfl⟩ | ⟨-, -, -, rfl⟩ := boundary_cases h
    · rw [resetEvent_status]
      exact ⟨Nat.two_pow_pos s.aw, by decide⟩
    · have hmove := sequencerStep_status hseq
      rw [Status.eq_run_of_legal hlegal hbusy] at hmove
      exact ⟨sequencerStep_ptr_lt hseq hptr, Status.legal_of_sequencerMove hmove⟩
    · rw [startEvent_status, Status.started_of_legal hlegal hbusy hfault]
      exact ⟨Nat.mod_lt _ (Nat.two_pow_pos s.aw), by decide⟩
    · exact ⟨hptr, hlegal⟩
  rw [State.Inv, haw, hmem]
  exact ⟨hpos, hevent.1, hwf, hwithin, hevent.2⟩

/-- Settles O42: the host's writes keep the invariant, and so does the event of the boundary after them. -/
theorem everyStepKeepsTheInvariant : Obligations.EveryStepKeepsTheInvariant := by
  unfold Obligations.EveryStepKeepsTheInvariant
  intro s t hs h
  obtain ⟨u, hfill, -, hb⟩ := step_cases h
  exact boundary_keepsInv hb (hostFill_keepsInv hfill hs)

/-- Settles O43, field by field of the state after reset. -/
theorem resetStateMeetsTheInvariant : Obligations.ResetStateMeetsTheInvariant := by
  unfold Obligations.ResetStateMeetsTheInvariant
  exact ⟨by decide, by decide, rfl, rfl, by decide⟩

/-! ### Frames (R32, R42, R43, R44) -/

/-- No operation consumes a host input. -/
theorem exec_inputs {i : Instr} {s t : State} (h : exec i s = .next t) : t.inputs = s.inputs := by
  obtain ⟨-, cause, rfl⟩ | rfl := exec_cases h
  · rfl
  · cases i <;> rfl

/-- Of the operations that complete only INIT, MAD and FOLD write ACC. -/
theorem State.completed_acc (s : State) {i : Instr} (hinit : i ≠ .init) (hmad : i ≠ .mad) (hfold : ∀ k, i ≠ .fold k) :
    (s.completed i).acc = s.acc := by
  cases i with
  | init => exact absurd rfl hinit
  | mad => exact absurd rfl hmad
  | fold k => exact absurd rfl (hfold k)
  | _ => rfl

theorem State.completed_c (s : State) {i : Instr} (hldb : i ≠ .ldb) : (s.completed i).c = s.c := by
  cases i with
  | ldb => exact absurd rfl hldb
  | _ => rfl

theorem State.completed_ptr (s : State) {i : Instr} (hmad : i ≠ .mad) : (s.completed i).ptr = s.ptr := by
  cases i with
  | mad => exact absurd rfl hmad
  | _ => rfl

theorem State.completed_result (s : State) {i : Instr} (hfin : i ≠ .fin) : (s.completed i).result = s.result := by
  cases i with
  | fin => exact absurd rfl hfin
  | _ => rfl

theorem State.completed_status (s : State) {i : Instr} (hhalt : i ≠ .halt) : (s.completed i).status = s.status := by
  cases i with
  | halt => exact absurd rfl hhalt
  | _ => rfl

/-- What an operation other than a register's writers leaves of the register, faulted or completed (R32). -/
theorem exec_frame {i : Instr} {s t : State} (h : exec i s = .next t) :
    (i ≠ .init → i ≠ .mad → (∀ k, i ≠ .fold k) → t.acc = s.acc) ∧ (i ≠ .ldb → t.c = s.c) ∧
      (i ≠ .mad → t.ptr = s.ptr) ∧ (i ≠ .fin → t.result = s.result) := by
  obtain ⟨-, cause, rfl⟩ | rfl := exec_cases h
  · exact ⟨fun _ _ _ => rfl, fun _ => rfl, fun _ => rfl, fun _ => rfl⟩
  · exact ⟨s.completed_acc, s.completed_c, s.completed_ptr, s.completed_result⟩

/-- Settles O33: both ends of an operation, fault entry and completion, stay within its row. -/
theorem operationsWriteOnlyTheirRow : Obligations.OperationsWriteOnlyTheirRow := by
  unfold Obligations.OperationsWriteOnlyTheirRow
  intro i s t h
  obtain ⟨hprog, haw, hmem⟩ := exec_keepsStores h
  obtain ⟨hacc, hc, hptr, hresult⟩ := exec_frame h
  refine ⟨haw, hprog, exec_inputs h, fun a => by rw [hmem], hacc, hc, hptr, hresult, ?halt, fun hhalt => ?status⟩
  case halt =>
    rintro rfl
    exact execHalt_cases h
  case status =>
    obtain ⟨-, hfault⟩ | rfl := exec_cases h
    · exact .inr hfault
    · exact .inl (s.completed_status hhalt)

/-- The end of an operation does not look at the input memory. -/
theorem advance_setMem {s w t : State} (m : Memory) (h : advance s w = .next t) :
    advance (s.setMem m) (w.setMem m) = .next (t.setMem m) := by
  obtain ⟨hpc, rfl⟩ | ⟨hpc, rfl⟩ := advance_cases h
  · exact advance_of_eq _ _ hpc
  · exact advance_of_ne _ _ hpc

theorem raiseFault_setMem {cause : FaultCause} {s t : State} (m : Memory) (h : raiseFault cause s = .next t) :
    raiseFault cause (s.setMem m) = .next (t.setMem m) := by
  injection h with h
  subst h
  rfl

/-- LDB depends on the byte at PTR alone. -/
theorem execLdb_setMem {s t : State} (m : Memory) (hread : m.read s.ptr = s.mem.read s.ptr) (h : execLdb s = .next t) :
    execLdb (s.setMem m) = .next (t.setMem m) := by
  obtain ⟨hptr, -⟩ := execLdb_cases h
  have hend : advance s (s.setC (s.mem.read s.ptr)) = .next t := (exec_ldb_of_lt hptr).symm.trans h
  have hldb : execLdb (s.setMem m) = advance (s.setMem m) ((s.setMem m).setC (m.read s.ptr)) := exec_ldb_of_lt hptr
  rw [hldb, hread]
  exact advance_setMem m hend

/-- Settles O34, operation by operation: all but LDB are built from `advance`, fault entry and writes of registers. -/
theorem onlyLdbReadsMemoryAndOnlyAtThePointer : Obligations.OnlyLdbReadsMemoryAndOnlyAtThePointer := by
  unfold Obligations.OnlyLdbReadsMemoryAndOnlyAtThePointer
  intro i s t m hread h
  cases i with
  | init => exact advance_setMem m h
  | ldb => exact execLdb_setMem m (hread rfl) h
  | bz a =>
    by_cases hc : s.c = 0#8
    · rw [exec_bz_of_zero a hc] at h
      injection h with h
      exact h ▸ exec_bz_of_zero (s := s.setMem m) a hc
    · rw [exec_bz_of_ne_zero a hc] at h
      exact (exec_bz_of_ne_zero (s := s.setMem m) a hc).trans (advance_setMem m h)
  | mad =>
    simp only [exec, execMad] at h ⊢
    split at h
    next htop => exact (if_pos htop).trans (raiseFault_setMem m h)
    next htop => exact (if_neg htop).trans (advance_setMem m h)
  | br a => injection h with h; exact h ▸ rfl
  | fold k =>
    simp only [exec, execFold] at h ⊢
    split at h
    next hk => exact (if_pos hk).trans (advance_setMem m h)
    next hk => exact (if_neg hk).trans (raiseFault_setMem m h)
  | fin => exact advance_setMem m h
  | halt => injection h with h; exact h ▸ rfl

/-! ### Which steps give a next state (R103, R144) -/

/-- The writes of a host that keeps its duties all land. -/
theorem hostFill_of_lawful {s : State} (h : s.hostLawful = true) : ∃ u, hostFill s.hostInput.fill s.dropInput = .next u := by
  simp only [State.hostLawful, Bool.and_eq_true, Bool.or_eq_true, Bool.not_eq_true', List.isEmpty_iff] at h
  obtain ⟨hbusy | hnone, hexist⟩ := h
  · exact hostFill_of_idle (s := s.dropInput) hbusy hexist
  · exact ⟨s.dropInput, by rw [hnone, hostFill_nil]⟩

/-- With PTR an AW-bit value every event of a boundary gives a next state. -/
theorem boundary_next (inp : HostInput) {s : State} (hptr : s.ptr < 2 ^ s.aw) : ∃ t, boundary inp s = .next t := by
  unfold boundary
  split
  next => exact ⟨_, rfl⟩
  next =>
    split
    next => exact sequencerStep_next hptr
    next => split <;> exact ⟨_, rfl⟩

/-- Settles O12: the host's writes land and leave PTR and AW, so the boundary after them gives a next state. -/
theorem stepIsTotalOnStatesOfTheHardware : Obligations.StepIsTotalOnStatesOfTheHardware := by
  unfold Obligations.StepIsTotalOnStatesOfTheHardware
  intro s ⟨_, hptr, _⟩ hlawful
  obtain ⟨u, hfill⟩ := hostFill_of_lawful hlawful
  rw [step_of_hostFill hfill]
  exact boundary_next s.hostInput (by rw [hostFill_frame hfill]; exact hptr)

/-- Settles O13: the first of the host's writes is already refused. -/
theorem hostWriteDuringARunIsRefused : Obligations.HostWriteDuringARunIsRefused := by
  unfold Obligations.HostWriteDuringARunIsRefused
  intro s a b more hbusy hfill
  have hwrite : hostWrite a b s.dropInput = .refused (.hostWriteDuringRun a) := if_pos hbusy
  rw [step, hostThenBoundary, hfill, hostFill, hwrite]

/-! ### The host's writes (R144) -/

/-- The last of the host's writes to an address wins; an address it did not write keeps its byte. -/
theorem hostFill_read {fill : List Host.Cell} {s t : State} (h : hostFill fill s = .next t) (hwf : s.mem.wf = true) (a : Nat) :
    t.mem.read a =
      ((fill.reverse.find? (fun cell => cell.1 == a)).map (fun cell => cell.2)).getD (s.mem.read a) := by
  induction fill generalizing s with
  | nil => injection h with h; rw [h]; rfl
  | cons cell rest ih =>
    obtain ⟨k, v⟩ := cell
    obtain ⟨-, -, hrest⟩ := hostFill_cons h
    rw [ih hrest (s.mem.wf_write k v hwf), State.setMem_mem, s.mem.read_write k v a hwf, List.reverse_cons, List.find?_append]
    cases rest.reverse.find? (fun cell => cell.1 == a) with
    | some cell => rfl
    | none =>
      by_cases hk : a = k
      · simp [hk]
      · simp [hk, Ne.symm hk]

/-- Settles O36: the step is total, and the boundary keeps the input memory that the host's writes leave. -/
theorem hostWritesLandInTheInputMemory : Obligations.HostWritesLandInTheInputMemory := by
  unfold Obligations.HostWritesLandInTheInputMemory
  intro s hs _ hlawful
  obtain ⟨t, ht⟩ := stepIsTotalOnStatesOfTheHardware s hs hlawful
  obtain ⟨u, hfill, -, hb⟩ := step_cases ht
  obtain ⟨_, _, hwf, _⟩ := hs
  exact ⟨t, ht, fun a => by rw [(boundary_keepsStores hb).mem, hostFill_read hfill hwf, State.dropInput_mem]⟩

/-! ### The writers of a register (R21 to R25) -/

/-- A sequencer step changes a register only by one of the operations whose row of R32 names it. -/
theorem sequencerStep_writers {s t : State} (h : sequencerStep s = .next t) :
    (t.acc ≠ s.acc → decode s.fetch = .ok .init ∨ decode s.fetch = .ok .mad ∨ ∃ k, decode s.fetch = .ok (.fold k)) ∧
      (t.c ≠ s.c → decode s.fetch = .ok .ldb) ∧ (t.ptr ≠ s.ptr → decode s.fetch = .ok .mad) ∧
      (t.result ≠ s.result → decode s.fetch = .ok .fin) := by
  obtain ⟨i, hi, h⟩ | ⟨e, -, rfl⟩ := sequencerStep_cases h
  · obtain ⟨hacc, hc, hptr, hresult⟩ := exec_frame h
    simp only [hi, Except.ok.injEq]
    refine ⟨fun hne => ?_, fun hne => by_contra fun hi => hne (hc hi), fun hne => by_contra fun hi => hne (hptr hi),
      fun hne => by_contra fun hi => hne (hresult hi)⟩
    by_contra hother
    simp only [not_or, not_exists] at hother
    obtain ⟨hinit, hmad, hfold⟩ := hother
    exact hne (hacc hinit hmad hfold)
  · exact ⟨absurd rfl, absurd rfl, absurd rfl, absurd rfl⟩

/-- Settles O37, by the event of the boundary: a sequencer step has the writers of its operation, START writes PTR of these
registers alone, and the host's writes none. -/
theorem registersChangeOnlyByTheirWriters : Obligations.RegistersChangeOnlyByTheirWriters := by
  unfold Obligations.RegistersChangeOnlyByTheirWriters
  intro s t h hrst
  obtain ⟨u, hfill, hframe, hb⟩ := step_cases h
  obtain ⟨m, rfl⟩ : ∃ m, u = s.dropInput.setMem m := ⟨_, hframe⟩
  obtain ⟨hr, -⟩ | ⟨-, hbusy, hseq⟩ | ⟨-, hbusy, hfault, hstart, rfl⟩ | ⟨-, -, -, rfl⟩ := boundary_cases hb
  · exact absurd (hrst.symm.trans hr) (by decide)
  · obtain ⟨hacc, hc, hptr, hresult⟩ := sequencerStep_writers hseq
    exact ⟨fun hne => ⟨hbusy, hacc hne⟩, fun hne => ⟨hbusy, hc hne⟩, fun hne => .inl ⟨hbusy, hptr hne⟩,
      fun hne => ⟨hbusy, hresult hne⟩⟩
  · exact ⟨absurd rfl, absurd rfl, fun _ => .inr ⟨hbusy, hfault, hstart⟩, absurd rfl⟩
  · exact ⟨absurd rfl, absurd rfl, absurd rfl, absurd rfl⟩

/-! ### The event after the host's writes (R102, R103, R140; log 4) -/

theorem boundary_of_rst {inp : HostInput} (s : State) (h : inp.rst = true) : boundary inp s = .next (resetEvent s) := if_pos h

theorem boundary_of_start {inp : HostInput} {s : State} (hrst : inp.rst = false) (hbusy : s.status.busy = false)
    (hfault : s.status.fault = false) (hstart : inp.start = true) : boundary inp s = .next (startEvent inp.base s) := by
  simp [boundary, hrst, hbusy, hfault, hstart]

theorem boundary_of_nothing {inp : HostInput} {s : State} (hrst : inp.rst = false) (hbusy : s.status.busy = false)
    (h : s.status.fault = true ∨ inp.start = false) : boundary inp s = .next s := by
  obtain h | h := h <;> simp [boundary, hrst, hbusy, h]

/-- Settles O57: the host's writes change the input memory alone, and the step is the event of its boundary on what they leave. -/
theorem hostWritesPrecedeTheEventOfTheirBoundary : Obligations.HostWritesPrecedeTheEventOfTheirBoundary := by
  unfold Obligations.HostWritesPrecedeTheEventOfTheirBoundary
  refine ⟨fun s _ hlawful => hostFill_of_lawful hlawful, fun s u hbusy hfill => ?_⟩
  obtain ⟨m, rfl⟩ : ∃ m, u = s.dropInput.setMem m := ⟨_, hostFill_frame hfill⟩
  rw [step_of_hostFill hfill]
  have hidle : (s.dropInput.setMem m).status.busy = false := hbusy
  refine ⟨rfl, boundary_of_rst _, fun hrst hfault hstart hbase => ?start, fun hrst => boundary_of_nothing hrst hidle⟩
  rw [boundary_of_start hrst hidle hfault hstart, startEvent, setPtr_of_lt ((s.dropInput.setMem m).setPc 0#4) _ hbase]
  rfl

/-! ### LDB and FOLD in states and terms that the hardware does not have (log 6, log 7) -/

/-- Settles O16: the read of an address that does not exist stops LDB before `next`. -/
theorem ldbStopsAtAnAddressThatDoesNotExist : Obligations.LdbStopsAtAnAddressThatDoesNotExist := by
  unfold Obligations.LdbStopsAtAnAddressThatDoesNotExist
  intro s hptr
  rw [exec, execLdb, memRead_of_le s.ptr s hptr]

/-- Settles O22: such a stage is not legal, and FOLD tests that before anything else. -/
theorem foldOutsideTheStagesRaisesIllegalOp : Obligations.FoldOutsideTheStagesRaisesIllegalOp := by
  unfold Obligations.FoldOutsideTheStagesRaisesIllegalOp
  intro s i hi
  have hillegal : ¬ legalStage i = true := by
    rw [legalStage_iff]
    omega
  exact if_neg hillegal

/-! ### Placing a word (log 2) -/

/-- Settles O56: the word placed is the one fetched, the host is idle at the boundary, and the word decodes to its operation. -/
theorem placedWordIsPerformedByTheNextStep : Obligations.PlacedWordIsPerformedByTheNextStep := by
  unfold Obligations.PlacedWordIsPerformedByTheNextStep
  intro s i hwf
  have hword : BitVec.ofNat 8 ((encode i).toNat % 2 ^ 8) = encode i := by
    rw [Nat.mod_eq_of_lt (encode i).isLt, BitVec.ofNat_toNat, BitVec.setWidth_eq]
  have hfetch : (s.withFetchWord 8 (encode i).toNat).dropInput.fetch = encode i :=
    Eq.trans (Vector.getElem_set_self s.pc.isLt) hword
  rw [step_of_running ⟨rfl, rfl⟩, sequencerStep_of_decode_ok (by rw [hfetch]; exact decode_encode hwf)]
  simp only [State.withFetchWord, State.dropInput, hword, List.tail_cons]
  rfl

/-! ### The branch to itself (R92, R129) -/

/-- The step of a running core whose word at PC is BR to PC only consumes the boundary's input. -/
theorem step_of_branch_to_itself {s : State} (hs : s.Running) (h : decode s.fetch = .ok (.br s.pc)) :
    step s = .next s.dropInput := by
  rw [step_of_running hs]
  exact sequencerStep_of_decode_ok (s := s.dropInput) h

theorem runSteps_succ_of_step {k : Nat} {s t : State} (h : step s = .next t) : runSteps (k + 1) s = runSteps k t := by
  rw [Nat.add_comm, runSteps_add 1 k ((runSteps_one s).trans h)]

/-- Settles O32, by induction on the number of steps: each leads to the same state with one input less. -/
theorem branchToItselfHangs : Obligations.BranchToItselfHangs := by
  unfold Obligations.BranchToItselfHangs
  intro k
  induction k with
  | zero => intro s _ _ _; rfl
  | succ k ih =>
    intro s hbusy hword hquiet
    obtain ⟨hnow, hlater⟩ := quietFor_succ s k hquiet
    rw [runSteps_succ_of_step (step_of_branch_to_itself ⟨hbusy, hnow⟩ hword), ih s.dropInput hbusy hword hlater]
    simp only [State.dropInput, List.drop_tail]

/-! ### The value that the bytes of a string leave in ACC (R77) -/

/-- The value that absorbing bytes makes of `h` with no reduction: the recursion of `djb2Unreduced` from any start (R77). -/
def absorbUnreduced (h : Nat) (str : List Byte) : Nat :=
  str.foldl (fun h ch => h * 33 + ch.toNat) h

theorem djb2Unreduced_eq (str : List Byte) : djb2Unreduced str = absorbUnreduced seed.toNat str := rfl

theorem absorbUnreduced_cons (h : Nat) (ch : Byte) (rest : List Byte) :
    absorbUnreduced h (ch :: rest) = absorbUnreduced (h * 33 + ch.toNat) rest := rfl

theorem absorbUnreduced_append_singleton (h : Nat) (str : List Byte) (ch : Byte) :
    absorbUnreduced h (str ++ [ch]) = absorbUnreduced h str * 33 + ch.toNat := by
  simp [absorbUnreduced]

/-- The closed sum of R77: the start and each byte are multiplied by 33 once for each byte after them. -/
theorem absorbUnreduced_eq_powerSum (h : Nat) (str : List Byte) :
    absorbUnreduced h str = h * 33 ^ str.length +
      ((List.range str.length).map (fun k => (str.getD k 0#8).toNat * 33 ^ (str.length - 1 - k))).sum := by
  induction str generalizing h with
  | nil => simp [absorbUnreduced]
  | cons ch rest ih =>
    have hexp (k : Nat) : rest.length + 1 - 1 - (k + 1) = rest.length - 1 - k := by omega
    rw [absorbUnreduced_cons, ih, List.length_cons, List.range_succ_eq_map, List.map_cons, List.map_map, List.sum_cons]
    simp only [Function.comp_def, Nat.succ_eq_add_one, List.getD_cons_succ, List.getD_cons_zero, hexp]
    rw [Nat.add_sub_cancel, Nat.sub_zero]
    ring

/-- Each byte is at most 255, so the value stays below what a string of bytes 255 would give. -/
theorem absorbUnreduced_le (h : Nat) (str : List Byte) :
    32 * absorbUnreduced h str + 255 ≤ (32 * h + 255) * 33 ^ str.length := by
  induction str generalizing h with
  | nil => simp [absorbUnreduced]
  | cons ch rest ih =>
    have hch : ch.toNat ≤ 255 := Nat.le_of_lt_succ ch.isLt
    calc 32 * absorbUnreduced h (ch :: rest) + 255
      _ ≤ (32 * (h * 33 + ch.toNat) + 255) * 33 ^ rest.length := ih _
      _ ≤ ((32 * h + 255) * 33) * 33 ^ rest.length := Nat.mul_le_mul_right _ (by omega)
      _ = (32 * h + 255) * 33 ^ (rest.length + 1) := by ring

/-- Reducing at each MAD or once at the end makes no difference (R73, R75). -/
theorem foldl_multiplyAdd_toNat (a : Word) (str : List Byte) :
    (str.foldl multiplyAdd a).toNat = absorbUnreduced a.toNat str % 2 ^ 64 := by
  induction str using List.reverseRecOn with
  | nil => exact (Nat.mod_eq_of_lt a.isLt).symm
  | append_singleton str ch ih =>
    rw [List.foldl_append, List.foldl_cons, List.foldl_nil, multiplyAdd_toNat, ih, absorbUnreduced_append_singleton]
    omega

/-- Settles O19: ACC is the unreduced value modulo `2^64`, and that value is the closed sum. -/
theorem accumulatorAfterBytesIsThePowerSum : Obligations.AccumulatorAfterBytesIsThePowerSum := by
  unfold Obligations.AccumulatorAfterBytesIsThePowerSum
  intro str
  rw [foldl_multiplyAdd_toNat, absorbUnreduced_eq_powerSum]
  rfl

/-- Settles O20: even bytes 255 keep the unreduced value below `2^64` up to 10 of them, and from the 11th byte on the seed's
own power is above it. -/
theorem accumulatorWrapsFromTheEleventhByte : Obligations.AccumulatorWrapsFromTheEleventhByte := by
  unfold Obligations.AccumulatorWrapsFromTheEleventhByte
  intro str _
  rw [djb2Unreduced_eq]
  refine ⟨fun hlen => ?upTo10, fun hlen => ?from11⟩
  case upTo10 =>
    have hbelow : absorbUnreduced seed.toNat str < 2 ^ 64 := by
      have hbound : 32 * absorbUnreduced seed.toNat str + 255 ≤ (32 * 5381 + 255) * 33 ^ 10 :=
        (absorbUnreduced_le seed.toNat str).trans (Nat.mul_le_mul_left _ (Nat.pow_le_pow_right (by decide) hlen))
      omega
    exact ⟨hbelow, by rw [foldl_multiplyAdd_toNat, Nat.mod_eq_of_lt hbelow]⟩
  case from11 =>
    have habove : 2 ^ 64 < absorbUnreduced seed.toNat str := by
      calc 2 ^ 64
        _ < 5381 * 33 ^ 11 := by decide
        _ ≤ 5381 * 33 ^ str.length := Nat.mul_le_mul_left _ (Nat.pow_le_pow_right (by decide) hlen)
        _ ≤ absorbUnreduced seed.toNat str := by
          rw [absorbUnreduced_eq_powerSum]
          exact Nat.le_add_right _ _
    exact ⟨habove, ((str.foldl multiplyAdd seed).isLt.trans habove).ne⟩

/-! ### The sign-extended byte (R114) -/

/-- Sign-extending a byte changes none of its own bits, so the low byte of each multiply-add is as in 8 bits. -/
theorem setWidth_djb2SignExtended (str : List Byte) : (djb2SignExtended str).setWidth 8 = djb2AtWidth 8 str := by
  have hch (ch : Byte) : (ch.signExtend 64).setWidth 8 = ch := by
    ext j hj
    rw [BitVec.getElem_setWidth, BitVec.getLsbD_signExtend, if_pos hj, decide_eq_true (by omega), Bool.true_and]
    rfl
  refine (List.foldl_hom (BitVec.setWidth 8) (init := 5381#64) fun h ch => ?_).symm
  rw [BitVec.setWidth_add _ _ (by decide), BitVec.setWidth_mul _ _ (by decide), hch, BitVec.ofNat_toNat, BitVec.setWidth_eq]
  rfl

/-- Settles O53: both folds have the 8-bit fold as their low byte; on the one byte 0x80 they differ above it. -/
theorem signExtensionCannotBeSeenInTheResult : Obligations.SignExtensionCannotBeSeenInTheResult := by
  unfold Obligations.SignExtensionCannotBeSeenInTheResult
  refine ⟨fun str => BitVec.eq_of_toNat_eq ?_, [0x80#8], by decide⟩
  calc (BitVec.ofNat 8 ((djb2SignExtended str).toNat % 256)).toNat
    _ = ((djb2SignExtended str).setWidth 8).toNat := by simp
    _ = ((djb2AtWidth 64 str).setWidth 8).toNat := by rw [setWidth_djb2SignExtended, setWidth_djb2AtWidth (by decide)]
    _ = (stringHash str).toNat := by rw [BitVec.toNat_setWidth, djb2AtWidth_64, stringHash_toNat]

/-! ### The input string in memory (R45) -/

/-- The search for the input string, in the terms of the memory's bytes. -/
theorem State.cstr_eq_some_iff (s : State) (b : Nat) (str : List Byte) :
    s.cstr b = some str ↔
      b + str.length < 2 ^ s.aw ∧ s.mem.bytes b str.length = str ∧ (∀ ch ∈ str, ch ≠ 0#8) ∧
        s.mem.read (b + str.length) = 0#8 := by
  rw [State.cstr, cstrFrom_eq_some_iff, Nat.lt_sub_iff_add_lt']

/-- Settles O44: the search stops at the first 0 and at the top of the memory. -/
theorem inputStringEndsBeforeTheFirstZero : Obligations.InputStringEndsBeforeTheFirstZero := by
  unfold Obligations.InputStringEndsBeforeTheFirstZero
  exact State.cstr_eq_some_iff

theorem Memory.take_bytes (m : Memory) (b : Nat) {k n : Nat} (h : k ≤ n) : (m.bytes b n).take k = m.bytes b k := by
  rw [Memory.bytes, ← List.map_take, List.take_range, Nat.min_eq_left h, Memory.bytes]

/-- Of an input string in memory: it ends below the top, its bytes are those read, none of them 0, and a 0 follows. -/
theorem State.reads_of_cstr {s : State} {b : Nat} {str : List Byte} (h : s.cstr b = some str) :
    b + str.length < 2 ^ s.aw ∧ s.mem.bytes b str.length = str ∧ (∀ j < str.length, s.mem.read (b + j) ≠ 0#8) ∧
      s.mem.read (b + str.length) = 0#8 := by
  obtain ⟨htop, hbytes, hne, hzero⟩ := (s.cstr_eq_some_iff b str).1 h
  rw [← hbytes] at hne
  exact ⟨htop, hbytes, (s.mem.forall_mem_bytes b str.length).1 hne, hzero⟩

/-! ### Canonical runs (R105, R129; log 4) -/

/-- Settles O45: no byte before the `k`-th is 0, so the run is at its `k`-th arrival with `djb2` of the bytes read. -/
theorem loopInvariantOfTheCanonicalRun : Obligations.LoopInvariantOfTheCanonicalRun := by
  unfold Obligations.LoopInvariantOfTheCanonicalRun
  intro s b k str hstr hk h
  obtain ⟨htop, hbytes, hne, -⟩ := State.reads_of_cstr hstr
  obtain ⟨c, hloop⟩ := staysInRun_to_loopHead h k le_rfl (by omega) fun j hj => hne j (by omega)
  have hacc : djb2 (str.take k) = djb2 (s.mem.bytes b k) := by rw [← hbytes, s.mem.take_bytes b hk]
  exact ⟨_, hloop.arrives, rfl, rfl, hacc.symm, Status.word_run⟩

/-- A run that is undisturbed for a number of boundaries is so for fewer. -/
theorem State.StartsCanonicalRun.mono {s : State} {b j k : Nat} (h : s.StartsCanonicalRun b k) (hjk : j ≤ k) :
    s.StartsCanonicalRun b j := by
  obtain ⟨himage, hstatus, hstart, hbase, hb, hquiet⟩ := h
  refine ⟨himage, hstatus, hstart, hbase, hb, List.all_eq_true.2 fun inp hinp => ?_⟩
  exact List.all_eq_true.1 hquiet inp ((List.take_subset_take_left s.inputs (Nat.succ_le_succ hjk)) hinp)

/-- Settles O48: a terminated input ends the run normally and an unterminated one in INPUT_OVERRUN, both within the bound. -/
theorem canonicalRunNeverHangs : Obligations.CanonicalRunNeverHangs := by
  unfold Obligations.CanonicalRunNeverHangs
  intro s b h
  cases hstr : s.cstr b with
  | some str =>
    obtain ⟨htop, -⟩ := State.reads_of_cstr hstr
    have hrun := (canonicalRunComputesTheHash s b str hstr (h.mono (by omega))).2
    exact ⟨_, _, by omega, by omega, hrun, rfl⟩
  | none =>
    have hpos : 0 < 2 ^ s.aw := Nat.two_pow_pos s.aw
    have hrun := (unterminatedRunEndsInInputOverrun s b hstr (h.mono (by omega))).2
    exact ⟨_, _, by omega, by omega, hrun, rfl⟩

/-- The state `u`, with a START event and no host write at the boundary that comes before its own. -/
def State.withStart (u : State) (b : Nat) : State := { u with inputs := ⟨false, true, b, []⟩ :: u.inputs }

/-- Once the host's writes have landed, the START event of their boundary is one without writes. -/
theorem step_eq_step_withStart {s u : State} (hfill : hostFill s.hostInput.fill s.dropInput = .next u)
    (hbusy : s.status.busy = false) (hfault : s.status.fault = false) (hrst : s.hostInput.rst = false)
    (hstart : s.hostInput.start = true) : step s = step (u.withStart s.hostInput.base) := by
  obtain ⟨m, rfl⟩ : ∃ m, u = s.dropInput.setMem m := ⟨_, hostFill_frame hfill⟩
  have hidle : (s.dropInput.setMem m).status.busy = false := hbusy
  rw [step_of_hostFill hfill, boundary_of_start hrst hidle hfault hstart]
  exact (step_of_start (s := (s.dropInput.setMem m).withStart s.hostInput.base) hbusy hfault rfl rfl).symm

theorem runSteps_succ_congr {k : Nat} {s u : State} (h : step s = step u) : runSteps (k + 1) s = runSteps (k + 1) u := by
  simp only [runSteps, Host.Core.run, Sys2Proof.core, h]

/-- Settles O58: after its first step the run is the one that starts, without host writes, from what the writes left. -/
theorem runHashesTheInputWrittenAtItsStart : Obligations.RunHashesTheInputWrittenAtItsStart := by
  unfold Obligations.RunHashesTheInputWrittenAtItsStart
  intro s u b str himage hstatus hfill hrst hstart hbase hb hstr hquiet
  subst hbase
  have hfields : s.status.busy = false ∧ s.status.fault = false := by
    obtain hs | hs := hstatus <;> rw [hs] <;> exact ⟨rfl, rfl⟩
  obtain ⟨hbusy, hfault⟩ := hfields
  rw [runSteps_succ_congr (step_eq_step_withStart hfill hbusy hfault hrst hstart)]
  obtain ⟨m, rfl⟩ : ∃ m, u = s.dropInput.setMem m := ⟨_, hostFill_frame hfill⟩
  have hstarts : ((s.dropInput.setMem m).withStart s.hostInput.base).StartsCanonicalRun s.hostInput.base (4 * str.length + 12) :=
    ⟨himage, hstatus, rfl, rfl, hb, hquiet⟩
  rw [(canonicalRunComputesTheHash ((s.dropInput.setMem m).withStart s.hostInput.base) _ str hstr hstarts).2]
  simp [State.withStart]

/-! ### The addresses that a canonical run reads (R43; log 10) -/

/-- `n` steps lead from `s` to `t`, and `addrs` are the addresses they read. -/
structure StepsReading (n : Nat) (addrs : List Nat) (s t : State) : Prop where
  arrives : runSteps n s = .next t
  trace : readTrace n s = addrs

theorem readTrace_add (j k : Nat) {s t : State} (h : runSteps j s = .next t) :
    readTrace (j + k) s = readTrace j s ++ readTrace k t := by
  induction j generalizing s with
  | zero =>
    injection h with h
    rw [h, Nat.zero_add]
    rfl
  | succ j ih =>
    obtain ⟨u, hstep, hrun⟩ := runSteps_succ_cases h
    rw [Nat.succ_add]
    simp only [readTrace, hstep, ih hrun, List.append_assoc]

theorem StepsReading.trans {m n : Nat} {as bs : List Nat} {s t u : State} (h : StepsReading m as s t)
    (h' : StepsReading n bs t u) : StepsReading (m + n) (as ++ bs) s u where
  arrives := (runSteps_add m n h.arrives).trans h'.arrives
  trace := by rw [readTrace_add m n h.arrives, h.trace, h'.trace]

/-- A step reads at PTR if `mem_re` is 1, else nothing. -/
theorem StepsReading.of_step {s t : State} (h : step s = .next t) :
    StepsReading 1 (if s.memReadEnable then [s.ptr] else []) s t where
  arrives := (runSteps_one s).trans h
  trace := by simp [readTrace, h, State.ports]

/-- The word at address 1 of the canonical image is the only LDB (R100). -/
theorem canonicalImage_ldb_iff : ∀ pc : Nibble, decode (Config.canonicalImage[pc.toNat]'pc.isLt) = .ok .ldb ↔ pc = 1#4 := by
  decide

section
variable {s t : State} {b n k : Nat} {acc : Word} {c : Byte} {ptr : Nat} {pc : Nibble}

/-- In a canonical run `mem_re` is 1 exactly at address 1. -/
theorem memReadEnable_inRun (h : s.StartsCanonicalRun b n) (hk : k ≤ n) :
    (s.inRun k pc acc c ptr).memReadEnable = decide (pc = 1#4) := by
  obtain ⟨himage, -, -, -, -, hquiet⟩ := h
  have hrst := ((quiet_iff _).1 (State.inRun_quiet hquiet (Nat.lt_succ_of_le hk) pc acc c ptr)).1
  have hfetch : (s.inRun k pc acc c ptr).fetch = Config.canonicalImage[pc.toNat]'pc.isLt := by
    simp [State.fetch, State.inRun, himage]
  simp only [State.memReadEnable, hrst, hfetch, canonicalImage_ldb_iff]
  rfl

theorem stepsReading_ldb (h : s.StartsCanonicalRun b n) (hk : k ≤ n) (hptr : ptr < 2 ^ s.aw) :
    StepsReading 1 [ptr] (s.inRun k 1#4 acc c ptr) (s.inRun (k + 1) 2#4 acc (s.mem.read ptr) ptr) := by
  have hread := StepsReading.of_step ((runSteps_one _).symm.trans (staysInRun_ldb (acc := acc) (c := c) h hk hptr).arrives)
  rwa [memReadEnable_inRun h hk] at hread

/-- A step at another address than 1 reads nothing. -/
theorem stepsReading_none (h : s.StartsCanonicalRun b n) (hk : k ≤ n) (hpc : pc ≠ 1#4)
    (hstep : step (s.inRun k pc acc c ptr) = .next t) : StepsReading 1 [] (s.inRun k pc acc c ptr) t := by
  have hread := StepsReading.of_step hstep
  rwa [memReadEnable_inRun h hk, decide_eq_false hpc] at hread

theorem StaysInRun.readsNone (hrun : StaysInRun 1 (s.inRun k pc acc c ptr) t) (h : s.StartsCanonicalRun b n) (hk : k ≤ n)
    (hpc : pc ≠ 1#4) : StepsReading 1 [] (s.inRun k pc acc c ptr) t :=
  stepsReading_none h hk hpc ((runSteps_one _).symm.trans hrun.arrives)

/-- The START event reads nothing. -/
theorem stepsReading_start (h : s.StartsCanonicalRun b n) : StepsReading 1 [] s (s.inRun 1 0#4 s.acc s.c b) := by
  have hread := StepsReading.of_step ((runSteps_one _).symm.trans (staysInRun_start h).arrives)
  obtain ⟨-, hstatus, -⟩ := h
  have hbusy : s.status.busy = false := by
    obtain hs | hs := hstatus <;> rw [hs] <;> rfl
  simpa [State.memReadEnable, hbusy] using hread

/-- A pass of the loop reads the one address that PTR stands at. -/
theorem stepsReading_pass (h : s.StartsCanonicalRun b n) (hk : k + 3 ≤ n) (hne : s.mem.read ptr ≠ 0#8)
    (hptr : ptr + 1 < 2 ^ s.aw) :
    StepsReading 4 [ptr] (s.inRun k 1#4 acc c ptr)
      (s.inRun (k + 4) 1#4 (acc * 33#64 + BitVec.ofNat 64 (s.mem.read ptr).toNat) (s.mem.read ptr) (ptr + 1)) :=
  (stepsReading_ldb h (by omega) (by omega)).trans <|
    ((staysInRun_bz_next h (by omega) hne).readsNone h (by omega) (by decide)).trans <|
    ((staysInRun_mad h (by omega) hptr).readsNone h (by omega) (by decide)).trans <|
    (staysInRun_br h (by omega)).readsNone h (by omega) (by decide)

/-- Up to the arrival at address 1 after `m` passes the run has read the `m` addresses from `b` on. -/
theorem stepsReading_to_loopHead (h : s.StartsCanonicalRun b n) (m : Nat) (hn : 4 * m + 1 ≤ n) (hm : b + m < 2 ^ s.aw)
    (hne : ∀ j < m, s.mem.read (b + j) ≠ 0#8) :
    ∃ acc c, StepsReading (4 * m + 2) ((List.range m).map (fun k => b + k)) s (s.inRun (4 * m + 2) 1#4 acc c (b + m)) := by
  induction m with
  | zero =>
    have hinit : StepsReading 1 [] (s.inRun 1 0#4 s.acc s.c b) (s.inRun 2 1#4 seed s.c b) :=
      (staysInRun_init h (by omega)).readsNone h (by omega) (by decide)
    exact ⟨seed, s.c, (stepsReading_start h).trans hinit⟩
  | succ m ih =>
    obtain ⟨acc, c, harrives⟩ := ih (by omega) (by omega) fun j hj => hne j (by omega)
    rw [List.range_succ, List.map_append]
    exact ⟨_, _, harrives.trans (stepsReading_pass h (by omega) (hne m (by omega)) hm)⟩

/-- The first `m` stages of the post-process read nothing. -/
theorem stepsReading_stages (h : s.StartsCanonicalRun b n) (m : Nat) (hm : m ≤ 7) (hk : k + m ≤ n + 1) :
    ∃ a, StepsReading m [] (s.inRun k 5#4 acc c ptr) (s.inRun (k + m) (5#4 + BitVec.ofNat 4 m) a c ptr) := by
  induction m with
  | zero => exact ⟨acc, rfl, rfl⟩
  | succ m ih =>
    obtain ⟨a, harrives⟩ := ih (by omega) (by omega)
    have hstage := staysInRun_fold (acc := a) (c := c) (ptr := ptr) (k := k + m) h (by omega) (BitVec.ofNat 4 (m + 1))
      (by rw [BitVec.toNat_ofNat]; omega)
    have hpc : 4#4 + BitVec.ofNat 4 (m + 1) = 5#4 + BitVec.ofNat 4 m := by
      bv_omega
    have hnext : 5#4 + BitVec.ofNat 4 m + 1#4 = 5#4 + BitVec.ofNat 4 (m + 1) := by bv_omega
    have hne : 5#4 + BitVec.ofNat 4 m ≠ 1#4 := by bv_omega
    rw [hpc, hnext] at hstage
    exact ⟨_, harrives.trans (hstage.readsNone h (by omega) hne)⟩

/-- The way out of the loop reads the terminator, and nothing after it. -/
theorem readTrace_exit (h : s.StartsCanonicalRun b n) (hk : k + 10 ≤ n) (hptr : ptr < 2 ^ s.aw)
    (hzero : s.mem.read ptr = 0#8) : readTrace 11 (s.inRun k 1#4 acc c ptr) = [ptr] := by
  have hldb := stepsReading_ldb (acc := acc) (c := c) h (k := k) (by omega) hptr
  have hbz := (staysInRun_bz_taken (acc := acc) (ptr := ptr) (k := k + 1) h (by omega) hzero).readsNone h (by omega) (by decide)
  obtain ⟨a, hstages⟩ := stepsReading_stages (acc := acc) (c := s.mem.read ptr) (ptr := ptr) (k := k + 2) h 7 le_rfl (by omega)
  have hfin := (staysInRun_fin (acc := a) (c := s.mem.read ptr) (ptr := ptr) (k := k + 9) h (by omega)).readsNone h (by omega)
    (by decide)
  have hhalt := stepsReading_none (s := s.setResult (finalMask a)) (k := k + 10) (pc := 13#4) h (by omega) (by decide)
    (step_inRun_halt (acc := a) (c := s.mem.read ptr) (ptr := ptr) h (by omega))
  exact (hldb.trans <| hbz.trans <| hstages.trans <| hfin.trans hhalt).trace

end

/-- Settles O49: one address for each byte of the string in the loop, then the terminator's on the way out. -/
theorem canonicalRunReadsEachAddressOnce : Obligations.CanonicalRunReadsEachAddressOnce := by
  unfold Obligations.CanonicalRunReadsEachAddressOnce
  intro s b str hstr h
  obtain ⟨htop, -, hne, hzero⟩ := State.reads_of_cstr hstr
  obtain ⟨acc, c, hloop⟩ := stepsReading_to_loopHead h str.length (by omega) htop hne
  calc readTrace (4 * str.length + 13) s
    _ = (List.range str.length).map (fun k => b + k) ++ [b + str.length] := by
      rw [readTrace_add (4 * str.length + 2) 11 hloop.arrives, hloop.trace, readTrace_exit h (by omega) htop hzero]
    _ = (List.range (str.length + 1)).map (fun k => b + k) := by rw [List.range_succ, List.map_append]; rfl

end Sys2Proof.Machine
end
